-- ==== Sys2Proof/Word.lean ====
section
/-! DEFINITION. The two entry types of the engine's index spaces (R50) and the writer select. -/

namespace Sys2Proof

/-- One byte of a buffer, or one 8-bit `FW` entry (R5 `BYTE_BITS`, `FW_ENTRY_BITS`). -/
abbrev Byte := BitVec 8

/-- One 32-bit unsigned value (R5 `VALUE_BITS`). -/
abbrev Word := BitVec 32

/-- One 64-bit command word (R5 `CMD_BITS`, R80). -/
abbrev Command := BitVec 64

/-- The operand `s` of R80: which of the two writer contexts (R21) an operation names. -/
inductive WSel where
  | w0
  | w1
  deriving DecidableEq, Repr

end Sys2Proof
end

