-- ==== Sys2Proof/Config.lean ====
section
/-! DEFINITION. The implementation parameters of R5. The fixed ones are constants; the OPEN ones are fields of `Params`,
an argument of the model, and `Config.params` gives each the default that R5 states (log entry 3). -/

namespace Sys2Proof

/-- The two values of `WIDE_FIELD_POLICY` and `OVERLONG_SPECIFIER_POLICY` (92_eei_decisions.md D13, D14). -/
inductive Policy where
  /-- The default: the operation is refused. -/
  | refuse
  /-- The alternative: the operation completes with an integrator-assigned status from the unused codes 5..14. -/
  | reject (status : BitVec 4)
  deriving DecidableEq, Repr

/-- The OPEN parameters of R5. A capacity `none` is unbounded. -/
structure Params where
  /-- `CAP_BUF`: capacity in bytes of each of `W[0].buf`, `W[1].buf` and `IN`. -/
  capBuf    : Option Nat
  /-- `CAP_N`: capacity in entries of each of `FW` and `VAL`. -/
  capN      : Option Nat
  /-- `WIDE_FIELD_POLICY`: what an `FW` entry in 33..255 does. -/
  wideField : Policy
  /-- `OVERLONG_SPECIFIER_POLICY`: what a decoded length specifier above 32 does. -/
  overlong  : Policy
  deriving DecidableEq, Repr

/-- The defaults of R5: "its default is the value a model uses when none is given". -/
def Config.params : Params :=
  { capBuf := none, capN := none, wideField := .refuse, overlong := .refuse }

/-- `WIDTH_MAX` of R5: the largest `width` operand, and the largest legal field width `FW_MAX`. -/
abbrev Config.widthMax : Nat := 32

/-- A rejecting policy carries one of the unused codes 5..14 (R86, D13, D14). -/
def Policy.legal : Policy → Bool
  | .refuse => true
  | .reject c => decide (5 ≤ c.toNat ∧ c.toNat ≤ 14)

/-- Both policies are legal. -/
def Params.legal (p : Params) : Bool :=
  p.wideField.legal && p.overlong.legal

end Sys2Proof
end

