-- ==== Sys2Proof/Syntax.lean ====
section
/-! DEFINITION. The ten operations of R82, each with the fields of the command word that it uses (R81). -/

namespace Sys2Proof

/-- One operation; the operands stand in the order of the assembler syntax of R87. -/
inductive Instr where
  /-- `BITW value`, 0x01 (R110). -/
  | bitw (value : Word)
  /-- `WINIT s`, 0x10 (R120). -/
  | winit (sel : WSel)
  /-- `APPEND s, value, width`, 0x11 (R121). -/
  | append (sel : WSel) (value : Word) (width : Byte)
  /-- `APPENDD s, value, width`, 0x12 (R122). -/
  | appendd (sel : WSel) (value : Word) (width : Byte)
  /-- `FINISH s`, 0x13 (R123). -/
  | finish (sel : WSel)
  /-- `RINIT`, 0x20 (R140). -/
  | rinit
  /-- `TAKE width`, 0x21 (R141). -/
  | take (width : Byte)
  /-- `TAKEI width`, 0x22 (R142). -/
  | takei (width : Byte)
  /-- `ENCODE`, 0x30 (R160). -/
  | encode
  /-- `DECODE`, 0x31 (R180). -/
  | decode
  deriving DecidableEq, Repr

end Sys2Proof
end

