-- ==== Sys2Proof/WellFormed.lean ====
section
/-! DEFINITION. Which terms of `Instr` are operations: the `width` operand is 0..32 (R81, R85). -/

namespace Sys2Proof

/-- R85: the values 33..255 of the `width` field are reserved; every other operand admits its whole field. -/
def Instr.wellFormed : Instr → Bool
  | .bitw _ => true
  | .winit _ => true
  | .append _ _ width => decide (width.toNat ≤ Config.widthMax)
  | .appendd _ _ width => decide (width.toNat ≤ Config.widthMax)
  | .finish _ => true
  | .rinit => true
  | .take width => decide (width.toNat ≤ Config.widthMax)
  | .takei width => decide (width.toNat ≤ Config.widthMax)
  | .encode => true
  | .decode => true

end Sys2Proof
end

