-- ==== Sys2Proof/Decode.lean ====
section
/-! DEFINITION. The command word of R80: its fields, the opcode map of R82, the decoding procedure of R83, and the encoder
written from the same tables. -/

namespace Sys2Proof

/-! ## The fields of R80 and R81 -/

/-- Bits 63:56, `op`. -/
def fieldOp (c : Command) : BitVec 8 := c.extractLsb' 56 8

/-- Bit 48, `s`. -/
def fieldS (c : Command) : BitVec 1 := c.extractLsb' 48 1

/-- Bits 47:40, `width`. -/
def fieldWidth (c : Command) : Byte := c.extractLsb' 40 8

/-- Bits 31:0, `value`. -/
def fieldValue (c : Command) : Word := c.extractLsb' 0 32

/-- `s`: 0 is `W[0]`, 1 is `W[1]` (R80). -/
def selOfBit (b : BitVec 1) : WSel :=
  if b = 1#1 then .w1 else .w0

/-- The bit that stands for a writer context (R80). -/
def bitOfSel : WSel → BitVec 1
  | .w0 => 0#1
  | .w1 => 1#1

/-! ## The opcode map of R82 -/

/-- A row of the opcode map. -/
inductive Op where
  | bitw
  | winit
  | append
  | appendd
  | finish
  | rinit
  | take
  | takei
  | encode
  | decode
  deriving DecidableEq, Repr

/-- The ten rows, in the table's order. -/
def allOps : List Op :=
  [.bitw, .winit, .append, .appendd, .finish, .rinit, .take, .takei, .encode, .decode]

/-- The column `op` of R82. -/
def opcode : Op → BitVec 8
  | .bitw => 0x01#8
  | .winit => 0x10#8
  | .append => 0x11#8
  | .appendd => 0x12#8
  | .finish => 0x13#8
  | .rinit => 0x20#8
  | .take => 0x21#8
  | .takei => 0x22#8
  | .encode => 0x30#8
  | .decode => 0x31#8

/-- The column `match` of R82. -/
def rowMatch : Op → Command
  | .bitw => 0x0100000000000000#64
  | .winit => 0x1000000000000000#64
  | .append => 0x1100000000000000#64
  | .appendd => 0x1200000000000000#64
  | .finish => 0x1300000000000000#64
  | .rinit => 0x2000000000000000#64
  | .take => 0x2100000000000000#64
  | .takei => 0x2200000000000000#64
  | .encode => 0x3000000000000000#64
  | .decode => 0x3100000000000000#64

/-- The column `mask` of R82. -/
def rowMask : Op → Command
  | .bitw => 0xFFFFFFFF00000000#64
  | .winit => 0xFFFEFFFFFFFFFFFF#64
  | .append => 0xFFFE00FF00000000#64
  | .appendd => 0xFFFE00FF00000000#64
  | .finish => 0xFFFEFFFFFFFFFFFF#64
  | .rinit => 0xFFFFFFFFFFFFFFFF#64
  | .take => 0xFFFF00FFFFFFFFFF#64
  | .takei => 0xFFFF00FFFFFFFFFF#64
  | .encode => 0xFFFFFFFFFFFFFFFF#64
  | .decode => 0xFFFFFFFFFFFFFFFF#64

/-- The rows whose column "uses" names `width` (R82). -/
def usesWidth : Op → Bool
  | .append => true
  | .appendd => true
  | .take => true
  | .takei => true
  | .bitw => false
  | .winit => false
  | .finish => false
  | .rinit => false
  | .encode => false
  | .decode => false

/-- The row whose opcode is `b`, if one is (R83). -/
def opOfByte (b : BitVec 8) : Option Op :=
  allOps.find? fun o => opcode o == b

/-- The operation of a row with its operands taken from the word (R81). -/
def assemble (o : Op) (c : Command) : Instr :=
  match o with
  | .bitw => .bitw (fieldValue c)
  | .winit => .winit (selOfBit (fieldS c))
  | .append => .append (selOfBit (fieldS c)) (fieldValue c) (fieldWidth c)
  | .appendd => .appendd (selOfBit (fieldS c)) (fieldValue c) (fieldWidth c)
  | .finish => .finish (selOfBit (fieldS c))
  | .rinit => .rinit
  | .take => .take (fieldWidth c)
  | .takei => .takei (fieldWidth c)
  | .encode => .encode
  | .decode => .decode

/-! ## Decoding (R83) -/

/-- Why a word is illegal, in the order R83 tests. -/
inductive IllegalReason where
  /-- `op` is none of the ten values of R82. -/
  | unknownOpcode
  /-- A field that the row does not use is non-zero: `c & mask ≠ match`. -/
  | unusedFieldNonzero
  /-- The row uses `width` and `width > 32` (R85). -/
  | widthOver32
  deriving DecidableEq, Repr

/-- The decoding procedure of R83, total on the 64-bit words. -/
def decode (c : Command) : Except IllegalReason Instr :=
  match opOfByte (fieldOp c) with
  | none => .error .unknownOpcode
  | some o =>
    if c &&& rowMask o ≠ rowMatch o then .error .unusedFieldNonzero
    else if usesWidth o && decide (32 < (fieldWidth c).toNat) then .error .widthOver32
    else .ok (assemble o c)

/-! ## Encoding (R80, R82, R87) -/

/-- The picture of R80: `op[8] | z1[7] | s[1] | width[8] | z0[8] | value[32]` with both reserved fields 0. -/
def packWord (op : BitVec 8) (s : BitVec 1) (width : Byte) (value : Word) : Command :=
  op ++ 0#7 ++ s ++ width ++ 0#8 ++ value

/-- The row an operation belongs to. -/
def opOf : Instr → Op
  | .bitw _ => .bitw
  | .winit _ => .winit
  | .append _ _ _ => .append
  | .appendd _ _ _ => .appendd
  | .finish _ => .finish
  | .rinit => .rinit
  | .take _ => .take
  | .takei _ => .takei
  | .encode => .encode
  | .decode => .decode

/-- The command word of an operation: the lines of R87, unused fields 0. -/
def encode : Instr → Command
  | .bitw value => packWord 0x01#8 0#1 0#8 value
  | .winit sel => packWord 0x10#8 (bitOfSel sel) 0#8 0#32
  | .append sel value width => packWord 0x11#8 (bitOfSel sel) width value
  | .appendd sel value width => packWord 0x12#8 (bitOfSel sel) width value
  | .finish sel => packWord 0x13#8 (bitOfSel sel) 0#8 0#32
  | .rinit => packWord 0x20#8 0#1 0#8 0#32
  | .take width => packWord 0x21#8 0#1 width 0#32
  | .takei width => packWord 0x22#8 0#1 width 0#32
  | .encode => packWord 0x30#8 0#1 0#8 0#32
  | .decode => packWord 0x31#8 0#1 0#8 0#32

/-! ## The opcode table's numbering -/

/-- The command word whose low `nbits` bits are those of `w`, the others 0; `none` when a bit above 63 is set, since a
command word has exactly 64 bits (R80). -/
def commandOfBits (nbits w : Nat) : Option Command :=
  if w % 2 ^ nbits < 2 ^ 64 then some (BitVec.ofNat 64 (w % 2 ^ nbits)) else none

/-- The operation the decoder reads from the table's bits `w`. -/
def decodeTableWord (nbits w : Nat) : Option Instr :=
  match commandOfBits nbits w with
  | none => none
  | some c => (decode c).toOption

end Sys2Proof
end

