-- ==== Sys2Proof/Machine/State.lean ====
section
/-! DEFINITION. The whole architectural state of one engine (R20 to R26), the host's remaining actions (log entry 1), the
reasons a step can stop, and the state after reset (R33). -/

namespace Sys2Proof.Machine

open Sys2Proof

/-- A writer context `W[s]` (R21). -/
structure BitWriter where
  /-- The completed bytes of the stream, only ever extended at the end. -/
  buf  : List Byte
  /-- The partial byte being filled, from bit 7 downward. -/
  pend : Byte
  /-- How many bits of `pend` are filled. -/
  off  : Fin 8
  /-- Set by `FINISH`, cleared by `WINIT` (D8). -/
  fin  : Bool
  deriving DecidableEq, Repr

/-- The reader context `R` (R23). -/
structure BitReader where
  /-- The index in `IN` of the byte that holds the next unread bit. -/
  pos   : Nat
  /-- How many bits of that byte are consumed, from bit 7 downward. -/
  off   : Fin 8
  /-- A copy of that byte, meaningful only while `off` is not 0 (D9). -/
  cur   : Byte
  /-- Set by `RINIT`; cleared by a failing read, by `DECODE` and by a host write of `IN` (D10). -/
  valid : Bool
  deriving DecidableEq, Repr

/-- The completion record `CR` (R26). -/
structure Completion where
  /-- One of the 4-bit codes of R86. -/
  status : BitVec 4
  /-- The 32-bit result, 0 where the operation returns nothing. -/
  value  : Word
  deriving DecidableEq, Repr

/-- The completion statuses that R86 names. -/
inductive Status where
  | ok
  | countMismatch
  | zeroFieldWidth
  | valueTooLarge
  | outOfData
  | illegal
  deriving DecidableEq, Repr

/-- What the host does between two operations (R34, R88, R243). Reading a store or `CR` changes nothing and is no action. -/
inductive HostAction where
  /-- Issue a command word, any of the `2^64`. -/
  | command (c : Command)
  /-- `.fw`: replace `FW`. -/
  | setFw (xs : List Byte)
  /-- `.val`: replace `VAL`. -/
  | setVal (xs : List Word)
  /-- `.in`: replace `IN`, which clears `R.valid`. -/
  | setIn (xs : List Byte)
  /-- `.in W0`, `.in W1`: replace `IN` by a copy of the current `W[s].buf`, which clears `R.valid`. -/
  | copyIn (sel : WSel)
  /-- Reset the engine (R230). -/
  | reset
  deriving DecidableEq, Repr

/-- The state of R20, and the host's remaining actions. -/
structure State where
  /-- `W[0]` (R21). -/
  w0      : BitWriter
  /-- `W[1]` (R21). -/
  w1      : BitWriter
  /-- `R` (R23). -/
  reader  : BitReader
  /-- `FW`, the field widths (R25). -/
  fw      : List Byte
  /-- `VAL`, the values (R25). -/
  val     : List Word
  /-- `IN`, the input bytes (R25). -/
  inp     : List Byte
  /-- `CR` (R26). -/
  cr      : Completion
  /-- The model's own field: the actions the host has still to perform, first one first (R242). DESIGN CHOICE, log entry 1. -/
  pending : List HostAction
  deriving DecidableEq, Repr

/-- Why the machine can make no step although nothing is refused. -/
inductive Fault where
  /-- Raised by `step` when the host has issued no further action: the run has ended (R242). Safe: the model only stops. -/
  | awaitingHost
  deriving DecidableEq, Repr

/-- The closed list of refusal reasons of R207, and the rejection of an instruction without a meaning. -/
inductive Refusal where
  /-- Raised by `APPEND` and `APPENDD` on a finished writer (R121, R122). Safe: the spec has no step there. -/
  | appendAfterFinish
  /-- Raised by `FINISH` on a finished writer (R123). Safe: the spec has no step there. -/
  | finishTwice
  /-- Raised by `TAKE` and `TAKEI` when `R.valid` is 0 (R141, R142). Safe: the spec has no step there. -/
  | readerNotValid
  /-- Raised by `ENCODE` and `DECODE` when an `FW` entry exceeds 32, under the policy `refuse` (R166, R184). Safe. -/
  | fieldWidthOver32
  /-- Raised by `DECODE` when its second pass reaches a specifier above 32, under the policy `refuse` (R186). Safe. -/
  | lengthSpecifierOver32
  /-- Raised under a finite capacity by the push, store write or host replacement that would exceed it (R59). Safe. -/
  | capacityExceeded
  /-- Raised by `exec` alone, for an instruction that has no meaning yet. Safe. -/
  | notModelled (mnemonic : String)
  deriving DecidableEq, Repr

/-- Every piece of state at the value R33 gives it, and no host action pending (log entry 1). -/
def State.reset : State :=
  { w0 := { buf := [], pend := 0x00#8, off := 0, fin := false }
    w1 := { buf := [], pend := 0x00#8, off := 0, fin := false }
    reader := { pos := 0, off := 0, cur := 0x00#8, valid := false }
    fw := []
    val := []
    inp := []
    cr := { status := 0#4, value := 0#32 }
    pending := [] }

end Sys2Proof.Machine
end

