-- ==== Sys2Proof/Machine/Operands.lean ====
section
/-! DEFINITION. The operand forms: the `width` operand of the command word (R81, R85), the widths that the leading-one forms
derive from it (R122, R142), and the tests on the list operands in `FW` (R95, R166, R184). -/

namespace Sys2Proof.Machine

open Sys2Proof

/-- R85: 0..32 are the legal values of the `width` operand. -/
def legalWidth (width : Byte) : Bool := decide (width.toNat ≤ 32)

/-- How many bits `APPENDD` and `TAKEI` move: `width − 1`, and 0 for width 0 (R122, R142). -/
def payloadBits (width : Nat) : Nat := width - 1

/-- `r | (1 << (width − 1))`, for `width ≥ 1` (R142). -/
def restoreLeadingOne (r width : Nat) : Nat := r ||| (1 <<< (width - 1))

/-- Some entry of `FW` exceeds 32 (R166, R184). -/
def anyWide (fw : List Byte) : Bool := fw.any fun w => decide (32 < w.toNat)

/-- `2^w − 1`, exact on unbounded integers: the largest natural width a field of width `w` admits (R7, R95). -/
def maxNaturalWidth (w : Byte) : Nat := 2 ^ w.toNat - 1

end Sys2Proof.Machine
end

