-- ==== Sys2Proof/Machine/Flags.lean ====
section
/-! DEFINITION. The engine's only flags, `W[s].fin` and `R.valid` (R29): what sets and clears each. No operation computes a
flag from a result. -/

namespace Sys2Proof.Machine

open Sys2Proof

/-- `W[s].fin <- 1` (R123). -/
def setFin (w : BitWriter) : BitWriter := { w with fin := true }

/-- `R.valid <- 0` (R141, R180, R34). -/
def clearValid (r : BitReader) : BitReader := { r with valid := false }

end Sys2Proof.Machine
end

