-- ==== Sys2Proof/Machine/Ops.lean ====
section
/-! DEFINITION. The named operations that the meanings share: completing and raising (R8, R26, R210), access to the index
spaces (R8, R50), the natural width (R110), the writer's and the reader's bit-serial procedures (R121, R123, R141), and the
capacity test (R59). -/

namespace Sys2Proof.Machine

open Sys2Proof

/-! ## Completion -/

/-- The 4-bit codes of R86. -/
def statusCode : Status → BitVec 4
  | .ok => 0#4
  | .countMismatch => 1#4
  | .zeroFieldWidth => 2#4
  | .valueTooLarge => 3#4
  | .outOfData => 4#4
  | .illegal => 15#4

/-- `CR <- (status, value)` (R8, R26). -/
def complete (status : BitVec 4) (value : Word) (s : State) : State :=
  { s with cr := { status := status, value := value } }

/-- `complete(OK, value)` (R8). -/
def completeOk (value : Word) (s : State) : State :=
  complete (statusCode .ok) value s

/-- Raising an error, the whole of it once the raising rule's state effects are made: `CR <- (kind, 0)`. Nothing is saved and
control goes nowhere (R210), so there is nothing to return from (R211). -/
def raiseError (kind : Status) (s : State) : State :=
  complete (statusCode kind) 0#32 s

/-- The completion of a word that decodes to no operation: `CR <- (Illegal, 0)` and nothing else (R84, R206). -/
def completeIllegal (s : State) : State :=
  raiseError .illegal s

/-- How a procedure inside an operation ends the operation (R8, R9). -/
inductive Stop where
  /-- The operation completes with this error status. -/
  | raise (status : BitVec 4)
  /-- The operation is refused. -/
  | refuse (reason : Refusal)
  deriving DecidableEq, Repr

/-! ## Index spaces -/

/-- `W[s]`. -/
def writerAt (s : State) : WSel → BitWriter
  | .w0 => s.w0
  | .w1 => s.w1

/-- `W[s] <- w`. -/
def setWriter (s : State) (sel : WSel) (w : BitWriter) : State :=
  match sel with
  | .w0 => { s with w0 := w }
  | .w1 => { s with w1 := w }

/-- `MemRead(SPACE, i, 1)` on a byte space (R8). No rule reads past the end of a space, so the entry returned there is never
seen (log entry 8). -/
def memRead (space : List Byte) (i : Nat) : Byte := space.getD i 0#8

/-- `n` entries are more than the capacity allows; `none` is unbounded (R59). -/
def exceeds (cap : Option Nat) (n : Nat) : Bool :=
  match cap with
  | none => false
  | some c => decide (c < n)

/-! ## The natural width -/

/-- The largest `k < n` with bit `k` of `value` set, plus one; 0 when there is none. -/
def bitWidthBelow (value : Word) : Nat → Nat
  | 0 => 0
  | k + 1 => if value.getLsbD k then k + 1 else bitWidthBelow value k

/-- The natural width of a value (R110). -/
def bitWidth (value : Word) : Nat := bitWidthBelow value 32

/-! ## The writer -/

/-- `Init(s)` of R160, the state `WINIT` leaves (R120). -/
def initWriter : BitWriter := { buf := [], pend := 0x00#8, off := 0, fin := false }

/-- A bit as a byte. -/
def bitByte (b : Bool) : Byte := if b then 1#8 else 0#8

/-- One turn of the loop of `AppendBitsOf` (R121): OR the bit into `pend` at `7 − off`, and push when the byte is full. -/
def pushBit (w : BitWriter) (b : Bool) : BitWriter :=
  let filled := w.pend ||| (bitByte b <<< (7 - w.off.val))
  if w.off = 7 then { w with buf := w.buf ++ [filled], pend := 0x00#8, off := 0 }
  else { w with pend := filled, off := w.off + 1 }

/-- `AppendBitsOf(s, x, k)` (R121): the bits `x[k−1]` down to `x[0]`. -/
def appendBitsOf (w : BitWriter) (x : Word) : Nat → BitWriter
  | 0 => w
  | k + 1 => appendBitsOf (pushBit w (x.getLsbD k)) x k

/-- `FinishOf(s)` (R123, R160): push the partial byte, clear the cursor, set `fin`. -/
def finishOf (w : BitWriter) : BitWriter :=
  setFin { w with
    buf := if w.off = 0 then w.buf else w.buf ++ [w.pend]
    pend := 0x00#8
    off := 0 }

/-- The writer, unless its buffer exceeds `CAP_BUF` (R59). -/
def withinCap (cap : Option Nat) (w : BitWriter) : Except Stop BitWriter :=
  if exceeds cap w.buf.length then .error (.refuse .capacityExceeded) else .ok w

/-- `AppendBitsOf` under a capacity. -/
def appendChecked (cap : Option Nat) (w : BitWriter) (x : Word) (k : Nat) : Except Stop BitWriter :=
  withinCap cap (appendBitsOf w x k)

/-- `FinishOf` under a capacity. -/
def finishChecked (cap : Option Nat) (w : BitWriter) : Except Stop BitWriter :=
  withinCap cap (finishOf w)

/-! ## The reader -/

/-- The state `RINIT` leaves (R140). -/
def initReader : BitReader := { pos := 0, off := 0, cur := 0x00#8, valid := true }

/-- `bitpos(R)` (R24). -/
def bitPos (r : BitReader) : Nat := 8 * r.pos + r.off.val

/-- `rem(R)` (R24); 0 where `bitpos(R)` lies past the end, which RI excludes (log entry 7). -/
def remBits (inp : List Byte) (r : BitReader) : Nat := 8 * inp.length - bitPos r

/-- One turn of the loop of `TakeBitsOf` (R141): fetch at a byte's first bit, take bit `7 − off`, advance. -/
def takeBit (inp : List Byte) (r : BitReader) : Bool × BitReader :=
  let cur := if r.off = 0 then memRead inp r.pos else r.cur
  let next :=
    if r.off = 7 then { r with cur := cur, off := 0, pos := r.pos + 1 }
    else { r with cur := cur, off := r.off + 1 }
  (cur.getLsbD (7 - r.off.val), next)

/-- The loop of `TakeBitsOf` (R141): `k` bits onto `acc`, the first the most significant. -/
def takeLoop (inp : List Byte) : Nat → BitReader → Nat → Nat × BitReader
  | 0, r, acc => (acc, r)
  | k + 1, r, acc => takeLoop inp k (takeBit inp r).2 ((acc <<< 1) ||| (takeBit inp r).1.toNat)

/-- `TakeBitsOf(k)` (R141); `none` is its `OutOfData` exit, taken before any bit is consumed. -/
def takeBitsOf (inp : List Byte) (r : BitReader) (k : Nat) : Option (Nat × BitReader) :=
  if remBits inp r < k then none else some (takeLoop inp k r 0)

end Sys2Proof.Machine
end

