-- ==== Sys2Proof/Machine/BitReader.lean ====
section
/-! DEFINITION. The operations `RINIT`, `TAKE`, `TAKEI` (42_bitreader.md). -/

namespace Sys2Proof.Machine

open Sys2Proof

/-- `RINIT` (R140). -/
def execRinit (s : State) : Host.Outcome State Fault Refusal :=
  .next (completeOk 0#32 { s with reader := initReader })

/-- The end of a reader operation: the cursor stored and the result delivered, or `OutOfData` with `R.valid <- 0` and no bit
consumed (R141, D10). -/
def storeRead (s : State) (result : Nat → Nat) : Option (Nat × BitReader) → Host.Outcome State Fault Refusal
  | some (v, r) => .next (completeOk (BitVec.ofNat 32 (result v)) { s with reader := r })
  | none => .next (raiseError .outOfData { s with reader := clearValid s.reader })

/-- `TAKE width` (R141). A reserved width makes the word illegal (R85; log entry 6). -/
def execTake (width : Byte) (s : State) : Host.Outcome State Fault Refusal :=
  if legalWidth width = false then .next (completeIllegal s)
  else if s.reader.valid = false then .refused .readerNotValid
  else storeRead s id (takeBitsOf s.inp s.reader width.toNat)

/-- `TAKEI width` (R142): 0 for width 0, else `width − 1` bits with bit `width − 1` restored. -/
def execTakei (width : Byte) (s : State) : Host.Outcome State Fault Refusal :=
  if legalWidth width = false then .next (completeIllegal s)
  else if s.reader.valid = false then .refused .readerNotValid
  else if width.toNat = 0 then .next (completeOk 0#32 s)
  else storeRead s (fun v => restoreLeadingOne v width.toNat)
    (takeBitsOf s.inp s.reader (payloadBits width.toNat))

end Sys2Proof.Machine
end

