-- ==== Sys2Proof/Machine/BitWidth.lean ====
section
/-! DEFINITION. The operation `BITW` (40_bitwidth.md). -/

namespace Sys2Proof.Machine

open Sys2Proof

/-- `BITW value` (R110): `CR <- (OK, natural width)`. -/
def execBitw (value : Word) (s : State) : Host.Outcome State Fault Refusal :=
  .next (completeOk (BitVec.ofNat 32 (bitWidth value)) s)

end Sys2Proof.Machine
end

