-- ==== Sys2Proof/Machine/BitWriter.lean ====
section
/-! DEFINITION. The operations `WINIT`, `APPEND`, `APPENDD`, `FINISH` (41_bitwriter.md). Each that can push takes the
parameters of R5 in its `With` form; the form that `exec` calls uses their defaults. -/

namespace Sys2Proof.Machine

open Sys2Proof

/-- `WINIT s` (R120). -/
def execWinit (sel : WSel) (s : State) : Host.Outcome State Fault Refusal :=
  .next (completeOk 0#32 (setWriter s sel initWriter))

/-- The end of a writer operation: the new context stored and `complete(OK, 0)`, or the stop it met. -/
def storeWriter (sel : WSel) (s : State) : Except Stop BitWriter → Host.Outcome State Fault Refusal
  | .ok w => .next (completeOk 0#32 (setWriter s sel w))
  | .error (.raise status) => .next (complete status 0#32 s)
  | .error (.refuse reason) => .refused reason

/-- `APPEND s, value, width` (R121). A reserved width makes the word illegal (R85; log entry 6). -/
def execAppendWith (p : Params) (sel : WSel) (value : Word) (width : Byte) (s : State) :
    Host.Outcome State Fault Refusal :=
  if legalWidth width = false then .next (completeIllegal s)
  else if (writerAt s sel).fin then .refused .appendAfterFinish
  else storeWriter sel s (appendChecked p.capBuf (writerAt s sel) value width.toNat)

/-- `APPEND s, value, width` under the default parameters. -/
def execAppend (sel : WSel) (value : Word) (width : Byte) (s : State) : Host.Outcome State Fault Refusal :=
  execAppendWith Config.params sel value width s

/-- `APPENDD s, value, width` (R122): the low `width − 1` bits, none for `width ≤ 1`. Bit `width − 1` is not looked at. -/
def execAppenddWith (p : Params) (sel : WSel) (value : Word) (width : Byte) (s : State) :
    Host.Outcome State Fault Refusal :=
  if legalWidth width = false then .next (completeIllegal s)
  else if (writerAt s sel).fin then .refused .appendAfterFinish
  else storeWriter sel s (appendChecked p.capBuf (writerAt s sel) value (payloadBits width.toNat))

/-- `APPENDD s, value, width` under the default parameters. -/
def execAppendd (sel : WSel) (value : Word) (width : Byte) (s : State) : Host.Outcome State Fault Refusal :=
  execAppenddWith Config.params sel value width s

/-- `FINISH s` (R123). -/
def execFinishWith (p : Params) (sel : WSel) (s : State) : Host.Outcome State Fault Refusal :=
  if (writerAt s sel).fin then .refused .finishTwice
  else storeWriter sel s (finishChecked p.capBuf (writerAt s sel))

/-- `FINISH s` under the default parameters. -/
def execFinish (sel : WSel) (s : State) : Host.Outcome State Fault Refusal :=
  execFinishWith Config.params sel s

end Sys2Proof.Machine
end

