-- ==== Sys2Proof/Machine/Decoder.lean ====
section
/-! DEFINITION. The operation `DECODE` (44_decoder.md): the two passes of R180 over the reader's procedure. -/

namespace Sys2Proof.Machine

open Sys2Proof

/-- How a pass of R180 ends, and where it leaves the reader. -/
inductive Pass (α : Type) where
  /-- Every field was read. -/
  | done (xs : List α) (r : BitReader)
  /-- A read met the end of `IN`; `r` is as the last successful read left it (R181). -/
  | outOfData (r : BitReader)
  /-- The second pass reached a specifier above 32 (R186); `r` is as the last successful read left it. -/
  | overlong (r : BitReader)
  deriving DecidableEq, Repr

/-- One more field before a pass's fields. -/
def consPass {α : Type} (x : α) : Pass α → Pass α
  | .done xs r => .done (x :: xs) r
  | .outOfData r => .outOfData r
  | .overlong r => .overlong r

/-- The first pass of R180: `FW[i]` bits for each field, the numbers `nw[i]`. -/
def specifierPass (inp : List Byte) : List Byte → BitReader → Pass Nat
  | [], r => .done [] r
  | w :: ws, r =>
    match takeBitsOf inp r w.toNat with
    | none => .outOfData r
    | some (nw, r') => consPass nw (specifierPass inp ws r')

/-- The second pass of R180, at each field the test of R186 before the read of R142. -/
def payloadPass (inp : List Byte) : List Nat → BitReader → Pass Word
  | [], r => .done [] r
  | nw :: nws, r =>
    if 32 < nw then .overlong r
    else if nw = 0 then consPass 0#32 (payloadPass inp nws r)
    else
      match takeBitsOf inp r (payloadBits nw) with
      | none => .outOfData r
      | some (v, r') => consPass (BitVec.ofNat 32 (restoreLeadingOne v nw)) (payloadPass inp nws r')

/-- Both passes, "continuing the same reader/cursor" (R180). -/
def decodePasses (inp : List Byte) (fw : List Byte) : Pass Word :=
  match specifierPass inp fw initReader with
  | .done nws r => payloadPass inp nws r
  | .outOfData r => .outOfData r
  | .overlong r => .overlong r

/-- `Fail` of R180 with its status: `VAL <- []`, `R.valid <- 0` (R181). -/
def failDecode (status : BitVec 4) (r : BitReader) (s : State) : State :=
  complete status 0#32 { s with val := [], reader := clearValid r }

/-- How a policy ends a `DECODE` (D13, D14; log entries 9 and 15). -/
def policyDecode (policy : Policy) (reason : Refusal) (r : BitReader) (s : State) :
    Host.Outcome State Fault Refusal :=
  match policy with
  | .refuse => .refused reason
  | .reject status => .next (failDecode status r s)

/-- The end of `DECODE`: R182 on success, R181 on failure, or the refusal. -/
def storeDecoded (p : Params) (s : State) : Pass Word → Host.Outcome State Fault Refusal
  | .done xs r =>
    if exceeds p.capN xs.length then .refused .capacityExceeded
    else .next (completeOk 0#32 { s with val := xs, reader := clearValid r })
  | .outOfData r => .next (failDecode (statusCode .outOfData) r s)
  | .overlong r => policyDecode p.overlong .lengthSpecifierOver32 r s

/-- `DECODE` (R180, R184). DESIGN CHOICE (log entry 15): under `reject` the integrator's status stands where R184 and R186 place
the refusals; the spec orders the refusals only. -/
def execDecodeWith (p : Params) (s : State) : Host.Outcome State Fault Refusal :=
  if anyWide s.fw then policyDecode p.wideField .fieldWidthOver32 s.reader s
  else storeDecoded p s (decodePasses s.inp s.fw)

/-- `DECODE` under the default parameters. -/
def execDecode (s : State) : Host.Outcome State Fault Refusal :=
  execDecodeWith Config.params s

end Sys2Proof.Machine
end

