-- ==== Sys2Proof/Machine/Encoder.lean ====
section
/-! DEFINITION. The operation `ENCODE` (43_encoder.md): the algorithm of R160 over the writer's procedures, its two streams
held in local writer contexts until it ends (R31, R162, R163). -/

namespace Sys2Proof.Machine

open Sys2Proof

/-- What R160 keeps while it runs: both writers and the payload-bit count. -/
structure Scratch where
  w0    : BitWriter
  w1    : BitWriter
  pbits : Nat
  deriving DecidableEq, Repr

/-- The start of R160: `Init(0); Init(1)`, `pbits <- 0`. -/
def initScratch : Scratch := { w0 := initWriter, w1 := initWriter, pbits := 0 }

/-- `if nw >= 2: AppendBitsOf(1, v, nw − 1)` (R160 step 2). -/
def appendPayload (cap : Option Nat) (w : BitWriter) (v : Word) (nw : Nat) : Except Stop BitWriter :=
  if 2 ≤ nw then appendChecked cap w v (payloadBits nw) else .ok w

/-- One field of R160 step 2, the checks in the order of R161. -/
def encodeField (cap : Option Nat) (w : Byte) (v : Word) (e : Scratch) : Except Stop Scratch :=
  if w = 0#8 then .error (.raise (statusCode .zeroFieldWidth))
  else if bitWidth v = 0 then
    match appendChecked cap e.w0 0#32 w.toNat with
    | .error stop => .error stop
    | .ok w0 => .ok { e with w0 := w0 }
  else if maxNaturalWidth w < bitWidth v then .error (.raise (statusCode .valueTooLarge))
  else
    match appendChecked cap e.w0 (BitVec.ofNat 32 (bitWidth v)) w.toNat with
    | .error stop => .error stop
    | .ok w0 =>
      match appendPayload cap e.w1 v (bitWidth v) with
      | .error stop => .error stop
      | .ok w1 => .ok { w0 := w0, w1 := w1, pbits := e.pbits + (bitWidth v - 1) }

/-- R160 step 2: the fields in index order. -/
def encodeFields (cap : Option Nat) : List Byte → List Word → Scratch → Except Stop Scratch
  | w :: ws, v :: vs, e =>
    match encodeField cap w v e with
    | .error stop => .error stop
    | .ok e' => encodeFields cap ws vs e'
  | _, _, e => .ok e

/-- R160 step 4, the whole bytes: `AppendBitsOf(0, byte, 8)` for each. -/
def reemitBytes (cap : Option Nat) (w : BitWriter) : List Byte → Except Stop BitWriter
  | [] => .ok w
  | b :: bs =>
    match appendChecked cap w (b.setWidth 32) 8 with
    | .error stop => .error stop
    | .ok w' => reemitBytes cap w' bs

/-- R160 step 4: `pbits div 8` whole bytes, then the top `pbits mod 8` bits of the next byte as one value (D18). -/
def reemit (cap : Option Nat) (w : BitWriter) (payload : List Byte) (pbits : Nat) : Except Stop BitWriter :=
  match reemitBytes cap w (payload.take (pbits / 8)) with
  | .error stop => .error stop
  | .ok w' =>
    if pbits % 8 = 0 then .ok w'
    else appendChecked cap w' ((memRead payload (pbits / 8) >>> (8 - pbits % 8)).setWidth 32) (pbits % 8)

/-- R160 steps 3 to 5: finish the payload stream, re-emit it, finish the result. -/
def encodeTail (cap : Option Nat) (e : Scratch) : Except Stop BitWriter :=
  match finishChecked cap e.w1 with
  | .error stop => .error stop
  | .ok w1 =>
    match reemit cap e.w0 w1.buf e.pbits with
    | .error stop => .error stop
    | .ok w0 => finishChecked cap w0

/-- R160 after the refusal test: the finished `W[0]`, or the stop it met. -/
def encodeBody (cap : Option Nat) (fw : List Byte) (val : List Word) : Except Stop BitWriter :=
  if fw.length ≠ val.length then .error (.raise (statusCode .countMismatch))
  else
    match encodeFields cap fw val initScratch with
    | .error stop => .error stop
    | .ok e => encodeTail cap e

/-- `Fail(K)` of R160: both writers as after `WINIT`, `CR <- (K, 0)` (R162). -/
def failEncode (status : BitVec 4) (s : State) : State :=
  complete status 0#32 { s with w0 := initWriter, w1 := initWriter }

/-- The end of `ENCODE`: R163 on success, R162 on failure, or the refusal. -/
def storeEncoded (s : State) : Except Stop BitWriter → Host.Outcome State Fault Refusal
  | .ok w => .next (completeOk 0#32 { s with w0 := w, w1 := initWriter })
  | .error (.raise status) => .next (failEncode status s)
  | .error (.refuse reason) => .refused reason

/-- How a policy ends an operation: the refusal, or the integrator's status (D13, D14; log entry 15). -/
def policyStop (policy : Policy) (reason : Refusal) : Stop :=
  match policy with
  | .refuse => .refuse reason
  | .reject status => .raise status

/-- `ENCODE` (R160, R166). DESIGN CHOICE (log entry 15): under `reject` the integrator's status stands where R166 places the
refusal, before the checks of R161, so it wins over them; the spec orders the refusal only. -/
def execEncodeWith (p : Params) (s : State) : Host.Outcome State Fault Refusal :=
  if anyWide s.fw then storeEncoded s (.error (policyStop p.wideField .fieldWidthOver32))
  else storeEncoded s (encodeBody p.capBuf s.fw s.val)

/-- `ENCODE` under the default parameters. -/
def execEncode (s : State) : Host.Outcome State Fault Refusal :=
  execEncodeWith Config.params s

end Sys2Proof.Machine
end

