-- ==== Sys2Proof/Machine/Dispatch.lean ====
section
/-! DEFINITION. The meaning of each operation, one arm per constructor of `Instr`, in the order of R82. -/

namespace Sys2Proof.Machine

open Sys2Proof

def exec (i : Instr) (s : State) : Host.Outcome State Fault Refusal :=
  match i with
  | .bitw value => Sys2Proof.Machine.execBitw value s
  | .winit sel => Sys2Proof.Machine.execWinit sel s
  | .append sel value width => Sys2Proof.Machine.execAppend sel value width s
  | .appendd sel value width => Sys2Proof.Machine.execAppendd sel value width s
  | .finish sel => Sys2Proof.Machine.execFinish sel s
  | .rinit => Sys2Proof.Machine.execRinit s
  | .take width => Sys2Proof.Machine.execTake width s
  | .takei width => Sys2Proof.Machine.execTakei width s
  | .encode => Sys2Proof.Machine.execEncode s
  | .decode => Sys2Proof.Machine.execDecode s

end Sys2Proof.Machine
end

