-- ==== Sys2Proof/Machine/Engine.lean ====
section
/-! DEFINITION. What one step does with the host's next action (R34, R84, R230, R242), and the machine under any parameters
of R5. -/

namespace Sys2Proof.Machine

open Sys2Proof

/-- `exec` with the OPEN parameters of R5 given (log entry 3). -/
def execWith (p : Params) (i : Instr) (s : State) : Host.Outcome State Fault Refusal :=
  match i with
  | .bitw value => execBitw value s
  | .winit sel => execWinit sel s
  | .append sel value width => execAppendWith p sel value width s
  | .appendd sel value width => execAppenddWith p sel value width s
  | .finish sel => execFinishWith p sel s
  | .rinit => execRinit s
  | .take width => execTake width s
  | .takei width => execTakei width s
  | .encode => execEncodeWith p s
  | .decode => execDecodeWith p s

/-- A command word: the operation it decodes to, or the `Illegal` completion (R83, R84). -/
def runCommand (run : Instr → State → Host.Outcome State Fault Refusal) (c : Command) (s : State) :
    Host.Outcome State Fault Refusal :=
  match decode c with
  | .ok i => run i s
  | .error _ => .next (completeIllegal s)

/-- A host replacement of `FW` (R34, R59). -/
def hostSetFw (p : Params) (xs : List Byte) (s : State) : Host.Outcome State Fault Refusal :=
  if exceeds p.capN xs.length then .refused .capacityExceeded else .next { s with fw := xs }

/-- A host replacement of `VAL` (R34, R59). -/
def hostSetVal (p : Params) (xs : List Word) (s : State) : Host.Outcome State Fault Refusal :=
  if exceeds p.capN xs.length then .refused .capacityExceeded else .next { s with val := xs }

/-- A host replacement of `IN`, which clears `R.valid` whatever the new contents (R34, R59). -/
def hostSetIn (p : Params) (xs : List Byte) (s : State) : Host.Outcome State Fault Refusal :=
  if exceeds p.capBuf xs.length then .refused .capacityExceeded
  else .next { s with inp := xs, reader := clearValid s.reader }

/-- Reset between operations: the state of R33, the host's remaining actions kept (R230; log entry 10). -/
def hostReset (s : State) : State := { State.reset with pending := s.pending }

/-- One host action (R34, R88, R243). -/
def performAction (p : Params) (run : Instr → State → Host.Outcome State Fault Refusal) (a : HostAction) (s : State) :
    Host.Outcome State Fault Refusal :=
  match a with
  | .command c => runCommand run c s
  | .setFw xs => hostSetFw p xs s
  | .setVal xs => hostSetVal p xs s
  | .setIn xs => hostSetIn p xs s
  | .copyIn sel => hostSetIn p (writerAt s sel).buf s
  | .reset => .next (hostReset s)

/-- Perform the first pending action; with none pending the run has ended (R242; log entry 2). -/
def engineStep (p : Params) (run : Instr → State → Host.Outcome State Fault Refusal) (s : State) :
    Host.Outcome State Fault Refusal :=
  match s.pending with
  | [] => .fault .awaitingHost
  | a :: rest => performAction p run a { s with pending := rest }

/-- One step of the machine with the OPEN parameters of R5 given. -/
def stepWith (p : Params) (s : State) : Host.Outcome State Fault Refusal :=
  engineStep p (execWith p) s

/-- The host is about to issue the word `c` (log entry 1). -/
def issue (c : Command) (s : State) : State := { s with pending := .command c :: s.pending }

end Sys2Proof.Machine
end

