-- ==== Sys2Proof/Machine/Step.lean ====
section
/-! DEFINITION. One step: the host's next action, under the default parameters. -/

namespace Sys2Proof.Machine

open Sys2Proof

/-- One host action performed; a command word is one atomic step (R56, R242). -/
def step (s : State) : Host.Outcome State Fault Refusal :=
  engineStep Config.params exec s

/-- `s` with the table's bits `w` as the very next command word the host issues (log entry 1). Bits above 63 do not fit a
command word and are dropped. -/
def State.withFetchWord (s : State) (nbits w : Nat) : State :=
  issue (BitVec.ofNat 64 (w % 2 ^ nbits)) s

end Sys2Proof.Machine
end

