-- ==== Sys2Proof/Safety.lean ====
section
/-! DEFINITION. The terms in which claims are stated: bit streams (R6, R22), the encoded-buffer format (R90 to R97), the
closed forms of one append and one read (R126, R145), the invariants (R21, R23, R26, R86), and runs (R242). Nothing here is
used by the machine. -/

namespace Sys2Proof.Machine

open Sys2Proof

/-! ## Bit streams (R6, R22) -/

/-- The bits `x[k−1]`, ..., `x[0]`: the low `k` bits of `x`, most significant first (R6). -/
def natBits (x : Nat) : Nat → List Bool
  | 0 => []
  | k + 1 => x.testBit k :: natBits x k

/-- The number whose binary digits are the bits, the first the most significant (R141). -/
def bitsNum (bs : List Bool) : Nat := bs.foldl (fun n b => 2 * n + b.toNat) 0

/-- `bytebits(b)` of R22: the bits of each byte in order, bit 7 first. -/
def bytesBits (bs : List Byte) : List Bool := bs.flatMap fun b => natBits b.toNat 8

/-- `bits(W[s])` of R22: the bits of `buf`, then the filled bits of `pend`. -/
def content (w : BitWriter) : List Bool := bytesBits w.buf ++ (natBits w.pend.toNat 8).take w.off.val

/-- `nbits(W[s])` of R22. -/
def contentLength (w : BitWriter) : Nat := 8 * w.buf.length + w.off.val

/-- How many zero bits bring `t` bits to a byte boundary (R93, R123). -/
def padLength (t : Nat) : Nat := (8 - t % 8) % 8

/-- `ceil8(t)` of R7. -/
def ceil8 (t : Nat) : Nat := (t + 7) / 8

/-- The bytes as one big-endian number (R145). -/
def bytesNum (bs : List Byte) : Nat := bs.foldl (fun n b => 256 * n + b.toNat) 0

/-! ## Closed forms (R126, R145) -/

/-- R126: the writer after `k` bits of `x` are appended, computed from the `t`-bit number `N`. -/
def closedAppend (w : BitWriter) (x k : Nat) : BitWriter :=
  let o := w.off.val
  let a := w.pend.toNat >>> (8 - o)
  let t := o + k
  let n := (a <<< k) ||| (x % 2 ^ k)
  let r := t % 8
  { w with
    buf := w.buf ++ (List.range (t / 8)).map fun j => BitVec.ofNat 8 ((n >>> (t - 8 * (j + 1))) % 256)
    pend := BitVec.ofNat 8 ((n % 2 ^ r) <<< (8 - r))
    off := ⟨r, Nat.mod_lt _ (by decide)⟩ }

/-- R145: the `k` bits at bit position `p`, computed from the bytes that hold them. -/
def closedTake (inp : List Byte) (p k : Nat) : Nat :=
  let m := (p + k - 1) / 8 + 1 - p / 8
  (bytesNum ((inp.drop (p / 8)).take m) >>> (8 * m - p % 8 - k)) % 2 ^ k

/-! ## The encoded-buffer format (R90 to R97) -/

/-- `spec(i)` (R91): the natural width in `w` bits. -/
def specBits (w : Byte) (v : Word) : List Bool := natBits (bitWidth v) w.toNat

/-- `pay(i)` (R92): the value without its leading one. -/
def payBits (v : Word) : List Bool := natBits v.toNat (bitWidth v - 1)

/-- All length specifiers in field order (R90). -/
def specStream (fw : List Byte) (vs : List Word) : List Bool := (List.zipWith specBits fw vs).flatten

/-- All payloads in field order (R90). -/
def payStream (vs : List Word) : List Bool := vs.flatMap payBits

/-- `Σ fw[i]`. -/
def widthSum (fw : List Byte) : Nat := (fw.map BitVec.toNat).sum

/-- `Σ max(nw[i] − 1, 0)` of a list of natural widths. -/
def payloadSum (nws : List Nat) : Nat := (nws.map fun nw => nw - 1).sum

/-- A field width and a value that `ENCODE`'s checks pass: `w ≠ 0` and `BITW(v) ≤ 2^w − 1` (R95, R160). -/
def FieldFits (w : Byte) (v : Word) : Prop := w ≠ 0#8 ∧ bitWidth v ≤ 2 ^ w.toNat - 1

/-- Every field width is at most 32 (R5 `FW_MAX`, R166). -/
def NoWideField (fw : List Byte) : Prop := ∀ w ∈ fw, w.toNat ≤ 32

/-- The precondition of the round trip (R188). -/
def EncodableFields (fw : List Byte) (vs : List Word) : Prop :=
  NoWideField fw ∧ fw.length = vs.length ∧ ∀ f ∈ fw.zip vs, FieldFits f.1 f.2

/-- The specifiers a decoder reads from the front of a stream: `fw[i]` bits each (R97, R183). -/
def specsOf : List Bool → List Byte → List Nat
  | _, [] => []
  | bs, w :: ws => bitsNum (bs.take w.toNat) :: specsOf (bs.drop w.toNat) ws

/-- The value a payload of a field with specifier `nw` stands for (R92, R142). -/
def payloadValue (nw : Nat) (payload : List Bool) : Word :=
  if nw = 0 then 0#32 else BitVec.ofNat 32 (2 ^ (nw - 1) + bitsNum payload)

/-- The values a decoder reads from the front of a stream: `nw − 1` bits each (R97, R183). -/
def valuesOf : List Bool → List Nat → List Word
  | _, [] => []
  | bs, nw :: nws => payloadValue nw (bs.take (nw - 1)) :: valuesOf (bs.drop (nw - 1)) nws

/-- The specifiers of `IN` under `FW`: `S_n` bits from its start. -/
def inputSpecs (s : State) : List Nat := specsOf (bytesBits s.inp) s.fw

/-- The values of `IN` under `FW`: the payloads follow the specifiers (R90). -/
def inputValues (s : State) : List Word := valuesOf ((bytesBits s.inp).drop (widthSum s.fw)) (inputSpecs s)

/-! ## Invariants -/

/-- WI (R21): the unfilled bits `7 − off` down to 0 of `pend` are 0; so `pend = 0` when `off = 0`. -/
abbrev WriterInv (w : BitWriter) : Prop := ∀ i < 8 - w.off.val, w.pend.getLsbD i = false

/-- A finished writer has no partial byte (R123, R163). -/
abbrev FinishedInv (w : BitWriter) : Prop := w.fin = true → w.off = 0 ∧ w.pend = 0#8

/-- RI (R23): the position is inside `IN`, at a byte's start when at its end, and `cur` is the byte being read. -/
abbrev ReaderInv (inp : List Byte) (r : BitReader) : Prop :=
  r.pos ≤ inp.length ∧ (r.pos = inp.length → r.off = 0) ∧ (r.off ≠ 0 → inp[r.pos]? = some r.cur)

/-- The status is a code that R86 names, and the value is 0 when it is not `OK` (R26, R86). -/
abbrev CompletionInv (c : Completion) : Prop :=
  c.status ∈ [0#4, 1#4, 2#4, 3#4, 4#4, 15#4] ∧ (c.status ≠ 0#4 → c.value = 0#32)

/-- What every reachable state satisfies. -/
abbrev EngineInv (s : State) : Prop :=
  WriterInv s.w0 ∧ WriterInv s.w1 ∧ FinishedInv s.w0 ∧ FinishedInv s.w1 ∧
    (s.reader.valid = true → ReaderInv s.inp s.reader) ∧ CompletionInv s.cr

/-- Every store is within the capacities (R59). -/
abbrev WithinCapacity (p : Params) (s : State) : Prop :=
  (∀ c ∈ p.capBuf, s.w0.buf.length ≤ c ∧ s.w1.buf.length ≤ c ∧ s.inp.length ≤ c) ∧
    ∀ c ∈ p.capN, s.fw.length ≤ c ∧ s.val.length ≤ c

/-! ## Runs (R242) -/

/-- Operations in issue order, each on the state the one before it leaves; the first that gives no state ends it. -/
def execList : List Instr → State → Host.Outcome State Fault Refusal
  | [], s => .next s
  | i :: is, s =>
    match exec i s with
    | .next t => execList is t
    | .fault f => .fault f
    | .refused r => .refused r

/-- The end state of the run of the pending actions, one step each; a refusal leaves the run without one (R242). -/
def endState (s : State) : Host.Outcome State Fault Refusal :=
  Host.Core.run Sys2Proof.core s.pending.length s

/-- The completion records of the first `n` steps, one per command word (R242). -/
def trace : Nat → State → List Completion
  | 0, _ => []
  | n + 1, s =>
    match step s with
    | .next t =>
      match s.pending with
      | .command _ :: _ => t.cr :: trace n t
      | _ => trace n t
    | .fault _ => []
    | .refused _ => []

/-- A safe run reaches its end: no action of it is refused (R207, R242). -/
def SafeRun (s : State) : Prop := ∃ t, endState s = .next t

/-- What the host can see of the state between operations (R34). -/
structure HostView where
  val  : List Word
  buf0 : List Byte
  buf1 : List Byte
  cr   : Completion
  deriving DecidableEq, Repr

/-- `VAL`, `W[0].buf`, `W[1].buf` and `CR` (R34). -/
def hostView (s : State) : HostView :=
  { val := s.val, buf0 := s.w0.buf, buf1 := s.w1.buf, cr := s.cr }

/-! ## Inversion (R144) -/

/-- A piece a writer appends: `APPEND` or `APPENDD` of the value and width. -/
inductive Piece where
  | plain (value : Word) (width : Byte)
  | dropped (value : Word) (width : Byte)
  deriving DecidableEq, Repr

/-- The width is legal, and the precondition of `APPENDD` holds (R122). -/
abbrev Piece.Legal : Piece → Prop
  | .plain _ width => width.toNat ≤ 32
  | .dropped value width => width.toNat ≤ 32 ∧ (1 ≤ width.toNat → value.getLsbD (width.toNat - 1) = true)

/-- The operation that appends the piece. -/
def Piece.write (sel : WSel) : Piece → Instr
  | .plain value width => .append sel value width
  | .dropped value width => .appendd sel value width

/-- The operation that reads the piece back. -/
def Piece.read : Piece → Instr
  | .plain _ width => .take width
  | .dropped _ width => .takei width

/-- The number the read returns: the low `width` bits of the value. -/
def Piece.number : Piece → Nat
  | .plain value width => value.toNat % 2 ^ width.toNat
  | .dropped value width => value.toNat % 2 ^ width.toNat

/-- Each read completes `OK` with its piece's number, in order, and the last leaves `t`. -/
def ReadsBack : List Piece → State → State → Prop
  | [], s, t => s = t
  | p :: ps, s, t =>
    ∃ m, exec p.read s = .next m ∧ m.cr = { status := 0#4, value := BitVec.ofNat 32 p.number } ∧ ReadsBack ps m t

end Sys2Proof.Machine
end

