-- ==== Sys2Proof/Certificates/Slice0/Obligations.lean ====
section
/-! DEFINITION. The statements for the provers. Each follows the rules its docstring cites; the completion record of every
next state is written out, as are the cursor registers, so that a statement is also the frame of its operation. -/

open Sys2Proof Sys2Proof.Machine

/-! ## Command words (30_encoding.md Part A) -/

/-- R80 to R83: decoding the word of a well-formed operation gives the operation back, every operand at every value. -/
def Obligations.DecodeOfEncode : Prop :=
  ∀ i : Instr, i.wellFormed = true → decode (encode i) = .ok i

/-- R82, R83: each word has at most one meaning, a well-formed one, and encoding that meaning gives the word back. -/
def Obligations.EncodeOfDecode : Prop :=
  ∀ (c : Command) (i : Instr), decode c = .ok i → i.wellFormed = true ∧ encode i = c

/-- R82: a word `c` selects the row when `c & mask = match` and, for rows that use `width`, `width ≤ 32`; its operands are
then those of R81. -/
def Obligations.DecodeFollowsOpcodeMap : Prop :=
  ∀ (c : Command) (o : Op),
    decode c = .ok (assemble o c) ↔
      c &&& rowMask o = rowMatch o ∧ (usesWidth o = true → (fieldWidth c).toNat ≤ 32)

/-- R87 and 95_test_vectors.md: one word of each operation, written out in the spec, decodes to it. -/
def Obligations.SampleWordsDecode : Prop :=
  decode 0x0100000000003039#64 = .ok (.bitw 12345#32) ∧
  decode 0x1001000000000000#64 = .ok (.winit .w1) ∧
  decode 0x1100030000000005#64 = .ok (.append .w0 0x5#32 3#8) ∧
  decode 0x12010E0000003039#64 = .ok (.appendd .w1 12345#32 14#8) ∧
  decode 0x1300000000000000#64 = .ok (.finish .w0) ∧
  decode 0x2000000000000000#64 = .ok .rinit ∧
  decode 0x2100200000000000#64 = .ok (.take 32#8) ∧
  decode 0x22000E0000000000#64 = .ok (.takei 14#8) ∧
  decode 0x3000000000000000#64 = .ok .encode ∧
  decode 0x3100000000000000#64 = .ok .decode

/-- R84: a word with a non-zero reserved field `z1` or `z0` decodes to no operation. -/
def Obligations.ReservedFieldsAreIllegal : Prop :=
  ∀ c : Command, (c.extractLsb' 49 7 ≠ 0#7 ∨ c.extractLsb' 32 8 ≠ 0#8) → ∀ i : Instr, decode c ≠ .ok i

/-! ## One step (R206, R242) -/

/-- R83, R242: when the host's next command word decodes to an operation, the step is `exec` of that operation at the state
without that word. -/
def Obligations.StepRunsDecodedOperation : Prop :=
  ∀ (s : State) (c : Command) (rest : List HostAction) (i : Instr),
    s.pending = .command c :: rest → decode c = .ok i → step s = exec i { s with pending := rest }

/-- R206: a word that decodes to no operation completes `(Illegal, 0)` and changes nothing else. -/
def Obligations.IllegalWordOnlyCompletes : Prop :=
  ∀ (s : State) (c : Command) (rest : List HostAction),
    s.pending = .command c :: rest → (∀ i : Instr, decode c ≠ .ok i) →
      step s = .next { s with pending := rest, cr := { status := 15#4, value := 0#32 } }

/-- R85: with `width` in 33..255 a word of the opcode of `APPEND`, `APPENDD`, `TAKE` or `TAKEI` is illegal, in every state. -/
def Obligations.ReservedWidthIsIllegal : Prop :=
  ∀ (s : State) (c : Command) (rest : List HostAction),
    s.pending = .command c :: rest → fieldOp c ∈ [0x11#8, 0x12#8, 0x21#8, 0x22#8] → 33 ≤ (fieldWidth c).toNat →
      step s = .next { s with pending := rest, cr := { status := 15#4, value := 0#32 } }

/-- R34, R88 under the default capacities: a replacement stores the whole sequence; one of `IN` also clears `R.valid`. R230: a
reset puts every piece of state at its reset value; that the host's remaining actions stand is the model's choice (log entry
10). -/
def Obligations.HostActsBetweenOperations : Prop :=
  ∀ (s : State) (rest : List HostAction),
    (∀ xs, s.pending = .setFw xs :: rest → step s = .next { s with pending := rest, fw := xs }) ∧
    (∀ xs, s.pending = .setVal xs :: rest → step s = .next { s with pending := rest, val := xs }) ∧
    (∀ xs, s.pending = .setIn xs :: rest →
      step s = .next { s with pending := rest, inp := xs, reader := { s.reader with valid := false } }) ∧
    (s.pending = .copyIn .w0 :: rest →
      step s = .next { s with pending := rest, inp := s.w0.buf, reader := { s.reader with valid := false } }) ∧
    (s.pending = .copyIn .w1 :: rest →
      step s = .next { s with pending := rest, inp := s.w1.buf, reader := { s.reader with valid := false } }) ∧
    (s.pending = .reset :: rest → step s = .next { State.reset with pending := rest })

/-- R33: every piece of state right after reset. -/
def Obligations.ResetValues : Prop :=
  State.reset.w0 = { buf := [], pend := 0x00#8, off := 0, fin := false } ∧
  State.reset.w1 = { buf := [], pend := 0x00#8, off := 0, fin := false } ∧
  State.reset.reader = { pos := 0, off := 0, cur := 0x00#8, valid := false } ∧
  State.reset.fw = [] ∧ State.reset.val = [] ∧ State.reset.inp = [] ∧
  State.reset.cr = { status := 0#4, value := 0#32 }

/-- Rests on R56 and R242: one step performs one action; no action adds, drops or reorders the host's further actions. The list
of pending actions is the model's own field (log entry 1), and that a reset keeps the rest of it is the model's choice (log
entry 10). -/
def Obligations.StepPerformsOneAction : Prop :=
  ∀ s t : State, step s = .next t → ∃ a, s.pending = a :: t.pending

/-! ## BITW (40_bitwidth.md) -/

/-- R110: `BITW` delivers the unique `n` with `2^(n−1) ≤ value < 2^n` (0 for 0), and touches only `CR`. -/
def Obligations.BitwDeliversNaturalWidth : Prop :=
  ∀ (value : Word) (s : State), ∃ n : Nat,
    n ≤ 32 ∧ (value = 0#32 → n = 0) ∧ (value ≠ 0#32 → 2 ^ (n - 1) ≤ value.toNat ∧ value.toNat < 2 ^ n ∧ 1 ≤ n) ∧
    exec (.bitw value) s = .next { s with cr := { status := 0#4, value := BitVec.ofNat 32 n } }

/-- R111 (which the spec marks as derived): the result is in 0..32; for a non-zero value bit `BITW − 1` is 1 and every higher
bit is 0; `value < 2^BITW`; the result is monotone, and is what `CR.value` holds, zero-extended. -/
def Obligations.BitwArithmeticLaw : Prop :=
  (∀ v : Word, bitWidth v ≤ 32 ∧ v.toNat < 2 ^ bitWidth v ∧
    (v ≠ 0#32 → v.getLsbD (bitWidth v - 1) = true ∧ ∀ k, bitWidth v ≤ k → v.getLsbD k = false)) ∧
  (∀ a b : Word, a.toNat ≤ b.toNat → bitWidth a ≤ bitWidth b) ∧
  (∀ (v : Word) (s : State), ∃ t, exec (.bitw v) s = .next t ∧ t.cr.status = 0#4 ∧ t.cr.value.toNat = bitWidth v)

/-! ## The writer (41_bitwriter.md) -/

/-- R120: `WINIT s` constructs an empty writer in every state and touches nothing else but `CR`. -/
def Obligations.WinitConstructsEmptyWriter : Prop :=
  ∀ s : State,
    exec (.winit .w0) s = .next { s with
      w0 := { buf := [], pend := 0x00#8, off := 0, fin := false }
      cr := { status := 0#4, value := 0#32 } } ∧
    exec (.winit .w1) s = .next { s with
      w1 := { buf := [], pend := 0x00#8, off := 0, fin := false }
      cr := { status := 0#4, value := 0#32 } }

/-- R121, and R125 (which the spec marks as derived): on an open writer `APPEND` makes the content `bits(W[s]) ++
[value[width−1], ..., value[0]]`, extends `buf` by `(off + width) div 8` bytes, leaves `off = (off + width) mod 8`, keeps WI,
and touches nothing else but `CR`. -/
def Obligations.AppendExtendsContent : Prop :=
  ∀ (sel : WSel) (value : Word) (width : Byte) (s : State),
    width.toNat ≤ 32 → (writerAt s sel).fin = false → WriterInv (writerAt s sel) →
    ∃ w : BitWriter,
      exec (.append sel value width) s = .next (setWriter { s with cr := { status := 0#4, value := 0#32 } } sel w) ∧
      content w = content (writerAt s sel) ++ natBits value.toNat width.toNat ∧
      (∃ pushed : List Byte, w.buf = (writerAt s sel).buf ++ pushed ∧
        pushed.length = ((writerAt s sel).off.val + width.toNat) / 8) ∧
      w.off.val = ((writerAt s sel).off.val + width.toNat) % 8 ∧ w.fin = false ∧ WriterInv w

/-- R122, and R125 (which the spec marks as derived): `APPENDD` appends `[value[width−2], ..., value[0]]`, nothing for `width
≤ 1`, and touches nothing else. -/
def Obligations.AppenddExtendsContent : Prop :=
  ∀ (sel : WSel) (value : Word) (width : Byte) (s : State),
    width.toNat ≤ 32 → (writerAt s sel).fin = false → WriterInv (writerAt s sel) →
    ∃ w : BitWriter,
      exec (.appendd sel value width) s = .next (setWriter { s with cr := { status := 0#4, value := 0#32 } } sel w) ∧
      content w = content (writerAt s sel) ++ natBits value.toNat (width.toNat - 1) ∧
      (∃ pushed : List Byte, w.buf = (writerAt s sel).buf ++ pushed ∧
        pushed.length = ((writerAt s sel).off.val + (width.toNat - 1)) / 8) ∧
      w.off.val = ((writerAt s sel).off.val + (width.toNat - 1)) % 8 ∧ w.fin = false ∧ WriterInv w

/-- R126 (which the spec marks as derived): one append computes the closed form, for `APPEND` with `k = width` and for
`APPENDD` with `k = width − 1`. -/
def Obligations.AppendClosedForm : Prop :=
  ∀ (sel : WSel) (value : Word) (width : Byte) (s : State),
    width.toNat ≤ 32 → (writerAt s sel).fin = false → WriterInv (writerAt s sel) →
    exec (.append sel value width) s = .next (setWriter { s with cr := { status := 0#4, value := 0#32 } } sel
      (closedAppend (writerAt s sel) value.toNat width.toNat)) ∧
    exec (.appendd sel value width) s = .next (setWriter { s with cr := { status := 0#4, value := 0#32 } } sel
      (closedAppend (writerAt s sel) value.toNat (width.toNat - 1)))

/-- R122: for `width ≥ 1`, `APPENDD s, value, width` has exactly the effect of `APPEND s, value, width − 1`, refusal included;
for `width = 0` that of `APPEND s, value, 0`. -/
def Obligations.AppenddIsAppendOfOneLess : Prop :=
  ∀ (sel : WSel) (value : Word) (width : Byte) (s : State), width.toNat ≤ 32 →
    exec (.appendd sel value width) s = exec (.append sel value (BitVec.ofNat 8 (width.toNat - 1))) s

/-- R125 (which the spec marks as derived): for `a + b ≤ 32`, `APPEND s, v, a + b` has the same effect as `APPEND s, v >> b,
a` then `APPEND s, v, b`. -/
def Obligations.AppendMayBeCut : Prop :=
  ∀ (sel : WSel) (v : Word) (a b : Nat) (s : State), a + b ≤ 32 →
    execList [.append sel (v >>> b) (BitVec.ofNat 8 a), .append sel v (BitVec.ofNat 8 b)] s =
      exec (.append sel v (BitVec.ofNat 8 (a + b))) s

/-- R123: `FINISH` on an open writer pushes the partial byte when there is one, clears the cursor and sets `fin`; the buffer
is then the whole content and `(8 − nbits mod 8) mod 8` zero bits, `ceil8(nbits)` bytes. -/
def Obligations.FinishPadsAndFlushes : Prop :=
  ∀ (sel : WSel) (s : State), (writerAt s sel).fin = false → WriterInv (writerAt s sel) →
    ∃ buf : List Byte,
      exec (.finish sel) s = .next (setWriter { s with cr := { status := 0#4, value := 0#32 } } sel
        { buf := buf, pend := 0x00#8, off := 0, fin := true }) ∧
      buf = (writerAt s sel).buf ++ (if (writerAt s sel).off = 0 then [] else [(writerAt s sel).pend]) ∧
      bytesBits buf = content (writerAt s sel) ++ List.replicate (padLength (contentLength (writerAt s sel))) false ∧
      buf.length = ceil8 (contentLength (writerAt s sel))

/-- R207: on a finished writer `APPEND` and `APPENDD` of any legal width are refused, and so is `FINISH`. -/
def Obligations.FinishedWriterRefuses : Prop :=
  ∀ (sel : WSel) (value : Word) (width : Byte) (s : State), (writerAt s sel).fin = true → width.toNat ≤ 32 →
    exec (.append sel value width) s = .refused .appendAfterFinish ∧
    exec (.appendd sel value width) s = .refused .appendAfterFinish ∧
    exec (.finish sel) s = .refused .finishTwice

/-- R124, for any parameters: a writer operation completes `(OK, 0)`, or is ill-formed and completes `(Illegal, 0)`, or is
refused for one of the three reasons; it never completes with an error status. What `execWith` answers on an ill-formed term,
which no command word decodes to, is the model's choice (log entry 6). -/
def Obligations.WriterRaisesNoError : Prop :=
  ∀ (p : Params) (i : Instr) (s : State), opOf i ∈ [Op.winit, Op.append, Op.appendd, Op.finish] →
    (∃ t, execWith p i s = .next t ∧ t.cr = { status := 0#4, value := 0#32 }) ∨
    (i.wellFormed = false ∧ execWith p i s = .next { s with cr := { status := 15#4, value := 0#32 } }) ∨
    (∃ r ∈ [Refusal.appendAfterFinish, .finishTwice, .capacityExceeded], execWith p i s = .refused r)

/-- R127 (which the spec marks as derived): from `WINIT s` any appends complete, the stream holds exactly as many bits as they
appended, and `FINISH s` adds fewer than 8. -/
def Obligations.AppendsPackTightly : Prop :=
  ∀ (sel : WSel) (pieces : List (Word × Byte)) (s : State), (∀ p ∈ pieces, p.2.toNat ≤ 32) →
    ∃ t u : State,
      execList (.winit sel :: pieces.map fun p => .append sel p.1 p.2) s = .next t ∧
      contentLength (writerAt t sel) = (pieces.map fun p => p.2.toNat).sum ∧
      exec (.finish sel) t = .next u ∧
      contentLength (writerAt t sel) ≤ contentLength (writerAt u sel) ∧
      contentLength (writerAt u sel) < contentLength (writerAt t sel) + 8

/-- R128: a writer operation on one context leaves the other, `R`, `FW`, `VAL` and `IN` as they were, and what it does, a
refusal included, depends on its own context alone; `BITW`, `RINIT`, `TAKE`, `TAKEI` and `DECODE` use neither, so only
`ENCODE` uses both. -/
def Obligations.WriterContextsAreIndependent : Prop :=
  (∀ (i : Instr) (sel other : WSel) (s : State),
    (i = .winit sel ∨ (∃ v w, i = .append sel v w) ∨ (∃ v w, i = .appendd sel v w) ∨ i = .finish sel) → other ≠ sel →
    (∀ t, exec i s = .next t →
      writerAt t other = writerAt s other ∧ t.reader = s.reader ∧ t.fw = s.fw ∧ t.val = s.val ∧ t.inp = s.inp) ∧
    (∀ s' t, writerAt s' sel = writerAt s sel → exec i s = .next t →
      ∃ t', exec i s' = .next t' ∧ writerAt t' sel = writerAt t sel ∧ t'.cr = t.cr) ∧
    (∀ s' r, writerAt s' sel = writerAt s sel → exec i s = .refused r → exec i s' = .refused r)) ∧
  ∀ (i : Instr) (s t : State) (u0 u1 : BitWriter), opOf i ∈ [Op.bitw, .rinit, .take, .takei, .decode] → exec i s = .next t →
    t.w0 = s.w0 ∧ t.w1 = s.w1 ∧ exec i { s with w0 := u0, w1 := u1 } = .next { t with w0 := u0, w1 := u1 }

/-- R57: a byte once pushed is never modified or removed by `APPEND`, `APPENDD` or `FINISH`. -/
def Obligations.PushedBytesStay : Prop :=
  ∀ (i : Instr) (s t : State) (sel : WSel), opOf i ∈ [Op.append, Op.appendd, Op.finish] → exec i s = .next t →
    (writerAt s sel).buf <+: (writerAt t sel).buf

/-! ## The reader (42_bitreader.md) -/

/-- R140: `RINIT` constructs the reader in every state and touches nothing else but `CR`. -/
def Obligations.RinitConstructsReader : Prop :=
  ∀ s : State, exec .rinit s = .next { s with
    reader := { pos := 0, off := 0, cur := 0x00#8, valid := true }
    cr := { status := 0#4, value := 0#32 } }

/-- R141: with `width ≤ rem(R)` `TAKE` delivers the number whose digits are the next `width` bits of `IN`, first bit most
significant, and moves the position by `width`; `width = 0` changes nothing in `R`. -/
def Obligations.TakeDeliversNextBits : Prop :=
  ∀ (width : Byte) (s : State), width.toNat ≤ 32 → s.reader.valid = true → ReaderInv s.inp s.reader →
    width.toNat ≤ remBits s.inp s.reader →
    ∃ r : BitReader,
      exec (.take width) s = .next { s with
        reader := r
        cr := { status := 0#4
                value := BitVec.ofNat 32 (bitsNum (((bytesBits s.inp).drop (bitPos s.reader)).take width.toNat)) } } ∧
      bitPos r = bitPos s.reader + width.toNat ∧ r.valid = true ∧ ReaderInv s.inp r ∧
      (width.toNat = 0 → r = s.reader)

/-- R142: `TAKEI 0` delivers 0 and consumes nothing; with `width − 1 ≤ rem(R)` `TAKEI` delivers `2^(width−1) + r`, `r` the
number of the next `width − 1` bits, and moves the position by `width − 1`. -/
def Obligations.TakeiRestoresLeadingOne : Prop :=
  ∀ (width : Byte) (s : State), width.toNat ≤ 32 → s.reader.valid = true → ReaderInv s.inp s.reader →
    (width.toNat = 0 → exec (.takei width) s = .next { s with cr := { status := 0#4, value := 0#32 } }) ∧
    (1 ≤ width.toNat → width.toNat - 1 ≤ remBits s.inp s.reader →
      ∃ r : BitReader,
        exec (.takei width) s = .next { s with
          reader := r
          cr := { status := 0#4
                  value := BitVec.ofNat 32 (2 ^ (width.toNat - 1) +
                    bitsNum (((bytesBits s.inp).drop (bitPos s.reader)).take (width.toNat - 1))) } } ∧
        bitPos r = bitPos s.reader + (width.toNat - 1) ∧ r.valid = true ∧ ReaderInv s.inp r ∧
        (width.toNat = 1 → r = s.reader))

/-- R142, in the sentence that the spec marks as derived: for `width ≥ 1` a completed `TAKEI` delivers a value in
`[2^(width−1), 2^width − 1]`, whose natural width is `width`. -/
def Obligations.TakeiResultHasItsWidth : Prop :=
  ∀ (width : Byte) (s t : State), 1 ≤ width.toNat → width.toNat ≤ 32 → exec (.takei width) s = .next t →
    t.cr.status = 0#4 →
    2 ^ (width.toNat - 1) ≤ t.cr.value.toNat ∧ t.cr.value.toNat ≤ 2 ^ width.toNat - 1 ∧ bitWidth t.cr.value = width.toNat

/-- R145 (which the spec marks as derived): for `1 ≤ k ≤ rem(R)` the number delivered is the closed form computed from the
bytes `IN[p div 8]` to `IN[(p + k − 1) div 8]`, at most 5 of them (R146), and the cursor is `((p + k) div 8, (p + k) mod 8)`.
-/
def Obligations.TakeClosedForm : Prop :=
  ∀ (width : Byte) (s : State), 1 ≤ width.toNat → width.toNat ≤ 32 → s.reader.valid = true →
    ReaderInv s.inp s.reader → width.toNat ≤ remBits s.inp s.reader →
    (bitPos s.reader + width.toNat - 1) / 8 + 1 - bitPos s.reader / 8 ≤ 5 ∧
    ∃ r : BitReader,
      exec (.take width) s = .next { s with
        reader := r
        cr := { status := 0#4, value := BitVec.ofNat 32 (closedTake s.inp (bitPos s.reader) width.toNat) } } ∧
      r.pos = (bitPos s.reader + width.toNat) / 8 ∧ r.off.val = (bitPos s.reader + width.toNat) % 8 ∧
      (r.off ≠ 0 → s.inp[r.pos]? = some r.cur)

/-- R141, R142: `OutOfData` when `rem(R) < width` for `TAKE`, when `width ≥ 1` and `rem(R) < width − 1` for `TAKEI`; then
`R.valid` is cleared and no bit is consumed. -/
def Obligations.ReadsPastTheEndFail : Prop :=
  ∀ (width : Byte) (s : State), width.toNat ≤ 32 → s.reader.valid = true →
    (remBits s.inp s.reader < width.toNat →
      exec (.take width) s = .next { s with
        reader := { s.reader with valid := false }, cr := { status := 4#4, value := 0#32 } }) ∧
    (1 ≤ width.toNat → remBits s.inp s.reader < width.toNat - 1 →
      exec (.takei width) s = .next { s with
        reader := { s.reader with valid := false }, cr := { status := 4#4, value := 0#32 } })

/-- R207: `TAKE` and `TAKEI` of any legal width are refused while `R.valid` is 0. -/
def Obligations.InvalidReaderRefuses : Prop :=
  ∀ (width : Byte) (s : State), width.toNat ≤ 32 → s.reader.valid = false →
    exec (.take width) s = .refused .readerNotValid ∧ exec (.takei width) s = .refused .readerNotValid

/-- R143: the outcomes of the reader's operations, and what they never write. That `exec` of an ill-formed `TAKE` or `TAKEI`,
which no command word decodes to, completes `Illegal` is the model's choice (log entry 6). -/
def Obligations.ReaderOutcomes : Prop :=
  ∀ (i : Instr) (s : State), opOf i ∈ [Op.rinit, Op.take, Op.takei] →
    (∃ t, exec i s = .next t ∧ t.cr.status ∈ [0#4, 4#4, 15#4] ∧ t.inp = s.inp ∧ t.fw = s.fw ∧ t.val = s.val ∧
      t.w0 = s.w0 ∧ t.w1 = s.w1 ∧ (t.cr.status = 15#4 → i.wellFormed = false)) ∨
    exec i s = .refused .readerNotValid

/-- R144 (which the spec marks as derived): reads of the same widths in the same order return what legal appends wrote, and
leave fewer than 8 unread bits, all zero. -/
def Obligations.ReadsInvertAppends : Prop :=
  ∀ (sel : WSel) (ps : List Piece) (s : State), (∀ p ∈ ps, p.Legal) →
    ∃ t u v z : State,
      execList (.winit sel :: ps.map (Piece.write sel) ++ [.finish sel]) s = .next t ∧
      performAction Config.params exec (.copyIn sel) t = .next u ∧ u.inp = (writerAt t sel).buf ∧
      exec .rinit u = .next v ∧ ReadsBack ps v z ∧ remBits z.inp z.reader < 8 ∧
      (bytesBits z.inp).drop (bitPos z.reader) = List.replicate (remBits z.inp z.reader) false

/-! ## ENCODE (43_encoder.md, 30_encoding.md Part B) -/

/-- R90 to R92, R163, and R93 (which the spec marks as derived): on a descriptor and values that pass the checks `ENCODE`
leaves in `W[0].buf` all specifiers, then all payloads, then zero padding, `ceil8(T)` bytes; `W[1]` is as after `WINIT` and
nothing else changes but `CR`. -/
def Obligations.EncodeWritesTheFormat : Prop :=
  ∀ s : State, EncodableFields s.fw s.val →
    ∃ buf : List Byte,
      exec .encode s = .next { s with
        w0 := { buf := buf, pend := 0x00#8, off := 0, fin := true }
        w1 := { buf := [], pend := 0x00#8, off := 0, fin := false }
        cr := { status := 0#4, value := 0#32 } } ∧
      bytesBits buf = specStream s.fw s.val ++ payStream s.val ++
        List.replicate (padLength (widthSum s.fw + payloadSum (s.val.map bitWidth))) false ∧
      buf.length = ceil8 (widthSum s.fw + payloadSum (s.val.map bitWidth))

/-- R165 (which the spec marks as derived): a successful `ENCODE` leaves in `W[0].buf` the bytes of the single-writer
sequence, `ceil8(T)` of them. -/
def Obligations.EncodeEqualsSingleStream : Prop :=
  ∀ s t : State, exec .encode s = .next t → t.cr.status = 0#4 →
    ∃ u : State,
      execList ([.winit .w0] ++
        List.zipWith (fun w v => .append .w0 (BitVec.ofNat 32 (bitWidth v)) w) s.fw s.val ++
        s.val.map (fun v => .appendd .w0 v (BitVec.ofNat 8 (bitWidth v))) ++ [.finish .w0]) s = .next u ∧
      u.w0 = t.w0 ∧ t.w0.buf.length = ceil8 (widthSum s.fw + payloadSum (s.val.map bitWidth))

/-- R161 (which the spec marks as derived): `CountMismatch` before any field; then the first field that fails,
`ZeroFieldWidth` before `ValueTooLarge`. The state is then that of R162. -/
def Obligations.EncodeReportsFirstError : Prop :=
  ∀ s : State, NoWideField s.fw →
    let failed (status : BitVec 4) : State := { s with
      w0 := { buf := [], pend := 0x00#8, off := 0, fin := false }
      w1 := { buf := [], pend := 0x00#8, off := 0, fin := false }
      cr := { status := status, value := 0#32 } }
    (s.fw.length ≠ s.val.length → exec .encode s = .next (failed 1#4)) ∧
    ∀ (ws ws' : List Byte) (w : Byte) (vs vs' : List Word) (v : Word),
      s.fw = ws ++ w :: ws' → s.val = vs ++ v :: vs' → ws.length = vs.length → ws'.length = vs'.length →
      (∀ f ∈ ws.zip vs, FieldFits f.1 f.2) →
      (w = 0#8 → exec .encode s = .next (failed 2#4)) ∧
      (w ≠ 0#8 → 2 ^ w.toNat - 1 < bitWidth v → exec .encode s = .next (failed 3#4))

/-- R162: when `ENCODE` completes with an error both writers are as after `WINIT`, and nothing else changes but `CR`. -/
def Obligations.FailedEncodeKeepsNothing : Prop :=
  ∀ s t : State, exec .encode s = .next t → t.cr.status ≠ 0#4 →
    t.cr.status ∈ [1#4, 2#4, 3#4] ∧
    t = { s with
      w0 := { buf := [], pend := 0x00#8, off := 0, fin := false }
      w1 := { buf := [], pend := 0x00#8, off := 0, fin := false }
      cr := { status := t.cr.status, value := 0#32 } }

/-- R164: what `ENCODE` delivers and leaves in the writers is a function of `FW` and `VAL` alone. -/
def Obligations.EncodeIgnoresEarlierState : Prop :=
  ∀ s s' : State, s'.fw = s.fw → s'.val = s.val →
    (∀ r, exec .encode s = .refused r → exec .encode s' = .refused r) ∧
    ∀ t, exec .encode s = .next t →
      ∃ t', exec .encode s' = .next t' ∧ t'.w0 = t.w0 ∧ t'.w1 = t.w1 ∧ t'.cr = t.cr

/-- R166, R184: with an `FW` entry in 33..255 `ENCODE` and `DECODE` are refused, before any other check, whatever `VAL` and
`IN` hold. -/
def Obligations.WideFieldIsRefused : Prop :=
  ∀ s : State, (∃ w ∈ s.fw, 33 ≤ w.toNat) →
    exec .encode s = .refused .fieldWidthOver32 ∧ exec .decode s = .refused .fieldWidthOver32

/-- R95 (which the spec marks as derived): the largest value each field width admits. -/
def Obligations.LargestValuePerWidth : Prop :=
  ∀ (w : Byte) (v : Word), 1 ≤ w.toNat → w.toNat ≤ 32 →
    (bitWidth v ≤ 2 ^ w.toNat - 1 ↔
      v.toNat ≤
        if w = 1#8 then 1
        else if w = 2#8 then 7
        else if w = 3#8 then 127
        else if w = 4#8 then 32767
        else if w = 5#8 then 2147483647
        else 4294967295)

/-! ## DECODE (44_decoder.md) -/

/-- R180, R182, and R183 (which the spec marks as derived): with no field width above 32, no specifier above 32 and `8·len(IN)
≥ S_n + P_n`, `DECODE` delivers the values read from `IN`, leaves `bitpos(R) = S_n + P_n` and `R.valid = 0`, and touches
nothing else but `CR`. -/
def Obligations.DecodeReadsTheFormat : Prop :=
  ∀ s : State, NoWideField s.fw → (∀ nw ∈ inputSpecs s, nw ≤ 32) →
    widthSum s.fw + payloadSum (inputSpecs s) ≤ 8 * s.inp.length →
    ∃ r : BitReader,
      exec .decode s = .next { s with
        val := inputValues s, reader := r, cr := { status := 0#4, value := 0#32 } } ∧
      r.valid = false ∧ bitPos r = widthSum s.fw + payloadSum (inputSpecs s)

/-- R181, and R183 (which the spec marks as derived): `OutOfData` when the first pass needs more bits than `IN` holds, or when
the second does at some field before which no specifier exceeds 32; then `VAL` is empty, `R.valid` is 0, and nothing else
changes but `R` and `CR`. -/
def Obligations.DecodeOfShortInputFails : Prop :=
  ∀ s : State, NoWideField s.fw →
    (8 * s.inp.length < widthSum s.fw ∨
      (widthSum s.fw ≤ 8 * s.inp.length ∧
        ∃ k, (∀ nw ∈ (inputSpecs s).take k, nw ≤ 32) ∧
          8 * s.inp.length < widthSum s.fw + payloadSum ((inputSpecs s).take k))) →
    ∃ r : BitReader,
      exec .decode s = .next { s with val := [], reader := r, cr := { status := 4#4, value := 0#32 } } ∧ r.valid = false

/-- R186: when the first pass succeeds and the second reaches a specifier above 32 with all earlier fields read, `DECODE` is
refused. -/
def Obligations.OverlongSpecifierIsRefused : Prop :=
  ∀ (s : State) (before after : List Nat) (nw : Nat), NoWideField s.fw → widthSum s.fw ≤ 8 * s.inp.length →
    inputSpecs s = before ++ nw :: after → 33 ≤ nw → (∀ n ∈ before, n ≤ 32) →
    widthSum s.fw + payloadSum before ≤ 8 * s.inp.length →
    exec .decode s = .refused .lengthSpecifierOver32

/-- R185: a field of width 0 decodes to 0 and occupies no bits. -/
def Obligations.ZeroWidthFieldDecodesToZero : Prop :=
  ∀ (s t : State) (ws ws' : List Byte), s.fw = ws ++ ws' →
    exec .decode s = .next t → t.cr.status = 0#4 →
    ∃ t' : State, exec .decode { s with fw := ws ++ 0#8 :: ws' } = .next t' ∧
      t'.val = t.val.take ws.length ++ 0#32 :: t.val.drop ws.length ∧ t'.reader = t.reader ∧ t'.cr = t.cr

/-- R187 a (which the spec marks as derived): bits after position `S_n + P_n` are never read: bytes added at the end of `IN`
change nothing. -/
def Obligations.DecodeIgnoresTrailingBytes : Prop :=
  ∀ (s t : State) (extra : List Byte), exec .decode s = .next t → t.cr.status = 0#4 →
    exec .decode { s with inp := s.inp ++ extra } = .next { t with inp := s.inp ++ extra }

/-- R188: `ENCODE`, the host's copy of `W[0].buf` to `IN`, then `DECODE` gives the values back, whenever every natural width
is within its field's range; the converse does not hold: `ENCODE` after a `DECODE` need not reproduce `IN`. -/
def Obligations.DecodeInvertsEncode : Prop :=
  (∀ s : State, EncodableFields s.fw s.val →
    ∃ t u z : State,
      exec .encode s = .next t ∧ t.cr.status = 0#4 ∧
      performAction Config.params exec (.copyIn .w0) t = .next u ∧ u.inp = t.w0.buf ∧
      exec .decode u = .next z ∧ z.cr = { status := 0#4, value := 0#32 } ∧ z.val = s.val) ∧
  ∃ s t u : State,
    exec .decode s = .next t ∧ t.cr.status = 0#4 ∧ exec .encode t = .next u ∧ u.cr.status = 0#4 ∧ u.w0.buf ≠ s.inp

/-! ## The whole machine -/

/-- R21, R23, R26, R86: every step keeps the invariants of the writers, the reader and the completion record. -/
def Obligations.StepKeepsEngineInv : Prop :=
  ∀ s t : State, EngineInv s → step s = .next t → EngineInv t

/-- R33: the state after reset satisfies them. -/
def Obligations.ResetSatisfiesEngineInv : Prop :=
  EngineInv State.reset

/-- R25, R27: what each operation leaves unchanged, over all operations. -/
def Obligations.OperationsTouchOnlyTheirState : Prop :=
  ∀ (i : Instr) (s t : State), exec i s = .next t →
    t.fw = s.fw ∧ t.inp = s.inp ∧ t.pending = s.pending ∧
    (opOf i ≠ .decode → t.val = s.val) ∧
    (opOf i ∉ [Op.rinit, .take, .takei, .decode] → t.reader = s.reader) ∧
    (opOf i ∈ [Op.bitw, .rinit, .take, .takei, .decode] → t.w0 = s.w0 ∧ t.w1 = s.w1)

/-- R26: `CR.value` is 0 unless the operation is `BITW`, `TAKE` or `TAKEI` and the status is `OK`; the value of `BITW` is at
most 32. -/
def Obligations.CompletionValueRule : Prop :=
  ∀ (i : Instr) (s t : State), exec i s = .next t →
    (t.cr.status ≠ 0#4 → t.cr.value = 0#32) ∧
    (opOf i ∉ [Op.bitw, .take, .takei] → t.cr.value = 0#32) ∧
    (opOf i = .bitw → t.cr.value.toNat ≤ 32)

/-- R86: which statuses each operation can raise; no other code is ever produced. -/
def Obligations.StatusesPerOperation : Prop :=
  ∀ (i : Instr) (s t : State), i.wellFormed = true → exec i s = .next t →
    t.cr.status = 0#4 ∨
    (opOf i = .encode ∧ t.cr.status ∈ [1#4, 2#4, 3#4]) ∨
    (opOf i ∈ [Op.take, .takei, .decode] ∧ t.cr.status = 4#4)

/-- R207 under the default parameters: a well-formed operation is refused only for a listed reason, and only in that reason's
case; none is a fault. -/
def Obligations.RefusedOnlyAsListed : Prop :=
  ∀ (i : Instr) (s : State), i.wellFormed = true →
    (∀ f, exec i s ≠ .fault f) ∧
    ∀ r, exec i s = .refused r →
      (r = .appendAfterFinish ∧ ((∃ sel v w, i = .append sel v w ∧ (writerAt s sel).fin = true) ∨
        ∃ sel v w, i = .appendd sel v w ∧ (writerAt s sel).fin = true)) ∨
      (r = .finishTwice ∧ ∃ sel, i = .finish sel ∧ (writerAt s sel).fin = true) ∨
      (r = .readerNotValid ∧ opOf i ∈ [Op.take, .takei] ∧ s.reader.valid = false) ∨
      (r = .fieldWidthOver32 ∧ opOf i ∈ [Op.encode, .decode] ∧ ∃ w ∈ s.fw, 33 ≤ w.toNat) ∨
      (r = .lengthSpecifierOver32 ∧ i = .decode ∧ widthSum s.fw ≤ 8 * s.inp.length ∧ ∃ nw ∈ inputSpecs s, 33 ≤ nw)

/-- R28: the position of the reader never decreases between two `RINIT`s: only `RINIT`, `TAKE`, `TAKEI` and `DECODE` change
it, and `TAKE` and `TAKEI` only forward. -/
def Obligations.BitPositionNeverDecreases : Prop :=
  ∀ (i : Instr) (s t : State), exec i s = .next t → opOf i ∉ [Op.rinit, .decode] →
    bitPos s.reader ≤ bitPos t.reader ∧ (opOf i ∉ [Op.take, .takei] → t.reader = s.reader)

/-- R23, U7: while `R.off = 0` no rule reads `R.cur`: another value there changes nothing but, at most, `R.cur`. -/
def Obligations.CurrentByteIsUnreadWhenAligned : Prop :=
  ∀ (i : Instr) (s t : State) (c : Byte), s.reader.off = 0 → exec i s = .next t →
    ∃ t', exec i { s with reader := { s.reader with cur := c } } = .next t' ∧
      { t' with reader := { t'.reader with cur := t.reader.cur } } = t ∧
      (t.reader.off ≠ 0 → t'.reader.cur = t.reader.cur)

/-- R141, U6: while `R.valid = 0` no operation reads the cursor: another cursor gives the same outcome but for the cursor. -/
def Obligations.CursorOfInvalidReaderIsUnobservable : Prop :=
  ∀ (i : Instr) (s t : State) (r : BitReader), s.reader.valid = false → r.valid = false → exec i s = .next t →
    ∃ t', exec i { s with reader := r } = .next t' ∧ { t' with reader := t.reader } = t ∧
      t'.reader.valid = t.reader.valid ∧ (t.reader.valid = true → t'.reader = t.reader)

/-! ## The OPEN parameters (R5, R59, D12 to D14) -/

/-- R5: `exec` is the machine under the default parameters. -/
def Obligations.ExecIsTheDefaultInstance : Prop :=
  ∀ (i : Instr) (s : State), execWith Config.params i s = exec i s ∧ stepWith Config.params s = step s

/-- R59: whatever the capacities, an operation that completes does what it does under unbounded ones, never truncated and
never wrapped, and leaves every store within them. -/
def Obligations.CapacitiesOnlyRefuse : Prop :=
  ∀ (p : Params) (s t : State), WithinCapacity p s → stepWith p s = .next t →
    stepWith { p with capBuf := none, capN := none } s = .next t ∧ WithinCapacity p t

/-- R59: under finite capacities a step whose result would exceed one is refused with `CapacityExceeded`. -/
def Obligations.ExceedingCapacityIsRefused : Prop :=
  ∀ (p : Params) (s t : State), WithinCapacity p s →
    stepWith { p with capBuf := none, capN := none } s = .next t → ¬ WithinCapacity p t →
    stepWith p s = .refused .capacityExceeded

/-- D13, D14, the alternative `reject`: the operation completes with the integrator's status and the failure effects of R162
or R181. That this status wins over every other error of the operation is the model's choice (log entry 15), and so is that
`DECODE` leaves the cursor as it stood (log entry 9). -/
def Obligations.RejectPolicyCompletes : Prop :=
  ∀ (p : Params) (c : BitVec 4) (s : State), p.wideField = .reject c → (∃ w ∈ s.fw, 33 ≤ w.toNat) →
    execWith p .encode s = .next { s with
      w0 := { buf := [], pend := 0x00#8, off := 0, fin := false }
      w1 := { buf := [], pend := 0x00#8, off := 0, fin := false }
      cr := { status := c, value := 0#32 } } ∧
    execWith p .decode s = .next { s with
      val := []
      reader := { s.reader with valid := false }
      cr := { status := c, value := 0#32 } }
end

