-- ==== Sys2Proof/Laws/Bits.lean ====
section
/-! SUPPORT. Bit strings (R6): the bits of a number, the number of bits, and how both behave under concatenation. -/

namespace Sys2Proof.Machine

open Sys2Proof

@[simp] theorem natBits_zero (x : Nat) : natBits x 0 = [] := rfl

theorem natBits_succ (x k : Nat) : natBits x (k + 1) = x.testBit k :: natBits x k := rfl

@[simp] theorem natBits_length (x k : Nat) : (natBits x k).length = k := by
  induction k with
  | zero => rfl
  | succ k ih => simp [natBits_succ, ih]

/-- Only the low `k` bits of the number matter. -/
theorem natBits_congr {x y : Nat} : ∀ {k : Nat}, (∀ i < k, x.testBit i = y.testBit i) → natBits x k = natBits y k
  | 0, _ => rfl
  | k + 1, h => by
    rw [natBits_succ, natBits_succ, h k (by omega), natBits_congr fun i hi => h i (by omega)]

/-- The top `a` bits, then the low `b` bits (R125). -/
theorem natBits_add (x a b : Nat) : natBits x (a + b) = natBits (x >>> b) a ++ natBits x b := by
  induction a with
  | zero => simp
  | succ a ih =>
    rw [Nat.add_right_comm, natBits_succ, natBits_succ, ih, Nat.testBit_shiftRight, Nat.add_comm b a]
    rfl

/-- The first `k` of `n` bits, then the rest. -/
theorem natBits_split (x : Nat) {n k : Nat} (h : k ≤ n) :
    natBits x n = natBits (x >>> (n - k)) k ++ natBits x (n - k) := by
  rw [← natBits_add, Nat.add_sub_cancel' h]

theorem natBits_take (x : Nat) {n k : Nat} (h : k ≤ n) : (natBits x n).take k = natBits (x >>> (n - k)) k := by
  rw [natBits_split x h, List.take_left' (natBits_length _ _)]

theorem natBits_drop (x : Nat) {n k : Nat} (h : k ≤ n) : (natBits x n).drop k = natBits x (n - k) := by
  rw [natBits_split x h, List.drop_left' (natBits_length _ _)]

/-- Bits of 0. -/
theorem natBits_of_zero (k : Nat) : natBits 0 k = List.replicate k false := by
  induction k with
  | zero => rfl
  | succ k ih => simp [natBits_succ, ih, List.replicate_succ]

/-! ## bitsNum -/

@[simp] theorem bitsNum_nil : bitsNum [] = 0 := rfl

theorem bitsNum_foldl (bs : List Bool) (n : Nat) :
    bs.foldl (fun n b => 2 * n + b.toNat) n = n * 2 ^ bs.length + bitsNum bs := by
  induction bs generalizing n with
  | nil => simp
  | cons b bs ih =>
    have h0 := ih (2 * n + b.toNat)
    have h1 := ih b.toNat
    simp only [bitsNum, List.foldl_cons, List.length_cons] at *
    simp only [Nat.mul_zero, Nat.zero_add]
    rw [h0, h1, pow_succ]
    ring

theorem bitsNum_cons (b : Bool) (bs : List Bool) : bitsNum (b :: bs) = b.toNat * 2 ^ bs.length + bitsNum bs := by
  have := bitsNum_foldl bs b.toNat
  simpa [bitsNum] using this

theorem bitsNum_append (as bs : List Bool) : bitsNum (as ++ bs) = bitsNum as * 2 ^ bs.length + bitsNum bs := by
  rw [bitsNum, List.foldl_append, bitsNum_foldl]
  rfl

/-- The number of `k` bits is below `2^k` (R141 corner case d). -/
theorem bitsNum_lt (bs : List Bool) : bitsNum bs < 2 ^ bs.length := by
  induction bs with
  | nil => simp
  | cons b bs ih =>
    rw [bitsNum_cons, List.length_cons, pow_succ]
    cases b <;> simp <;> omega

/-- Reading back the low `k` bits of a number gives it modulo `2^k`. -/
theorem bitsNum_natBits (x k : Nat) : bitsNum (natBits x k) = x % 2 ^ k := by
  induction k with
  | zero => simp [Nat.mod_one]
  | succ k ih =>
    rw [natBits_succ, bitsNum_cons, natBits_length, ih, Nat.toNat_testBit, pow_succ, Nat.mod_mul, Nat.mul_comm (2 ^ k)]
    omega

/-- The bits of the number of a bit string are the bit string. -/
theorem natBits_bitsNum (bs : List Bool) : natBits (bitsNum bs) bs.length = bs := by
  induction bs with
  | nil => rfl
  | cons b bs ih =>
    have hlt := bitsNum_lt bs
    rw [bitsNum_cons, List.length_cons, natBits_succ]
    congr 1
    · cases b
      · simpa using Nat.testBit_lt_two_pow hlt
      · simp [Nat.testBit_two_pow_add_eq, Nat.testBit_lt_two_pow hlt]
    · refine Eq.trans (natBits_congr fun i hi => ?_) ih
      cases b
      · simp
      · simp [Nat.testBit_two_pow_add_gt hi]

/-! ## bytesBits -/

@[simp] theorem bytesBits_nil : bytesBits [] = [] := rfl

theorem bytesBits_cons (b : Byte) (bs : List Byte) : bytesBits (b :: bs) = natBits b.toNat 8 ++ bytesBits bs := rfl

theorem bytesBits_append (as bs : List Byte) : bytesBits (as ++ bs) = bytesBits as ++ bytesBits bs := by
  simp [bytesBits]

theorem bytesBits_singleton (b : Byte) : bytesBits [b] = natBits b.toNat 8 := by
  simp [bytesBits]

@[simp] theorem bytesBits_length (bs : List Byte) : (bytesBits bs).length = 8 * bs.length := by
  induction bs with
  | nil => rfl
  | cons b bs ih => rw [bytesBits_cons, List.length_append, ih, natBits_length, List.length_cons]; omega

theorem bytesBits_drop (bs : List Byte) (n : Nat) : (bytesBits bs).drop (8 * n) = bytesBits (bs.drop n) := by
  induction n generalizing bs with
  | zero => simp
  | succ n ih =>
    cases bs with
    | nil => simp
    | cons b bs =>
      rw [bytesBits_cons, List.drop_succ_cons, ← ih, Nat.mul_succ, Nat.add_comm, ← List.drop_drop,
        List.drop_left' (natBits_length _ _)]

theorem bytesBits_take (bs : List Byte) (n : Nat) : (bytesBits bs).take (8 * n) = bytesBits (bs.take n) := by
  induction n generalizing bs with
  | zero => simp
  | succ n ih =>
    cases bs with
    | nil => simp
    | cons b bs =>
      rw [bytesBits_cons, List.take_succ_cons, bytesBits_cons, ← ih, Nat.mul_succ, Nat.add_comm,
        show 8 + 8 * n = (natBits b.toNat 8).length + 8 * n by simp, List.take_length_add_append]

/-- The big-endian number of bytes is the number of their bits. -/
theorem bytesNum_eq (bs : List Byte) : bytesNum bs = bitsNum (bytesBits bs) := by
  suffices h : ∀ n, bs.foldl (fun n b => 256 * n + b.toNat) n = n * 2 ^ (8 * bs.length) + bitsNum (bytesBits bs) by
    simpa [bytesNum] using h 0
  induction bs with
  | nil => simp
  | cons b bs ih =>
    intro n
    rw [List.foldl_cons, ih, bytesBits_cons, bitsNum_append, bitsNum_natBits, bytesBits_length, List.length_cons,
      Nat.mod_eq_of_lt b.isLt, Nat.mul_succ, pow_add]
    ring

end Sys2Proof.Machine
end

