-- ==== Sys2Proof/Laws/State.lean ====
section
/-! SUPPORT. One lemma per field per update of State, and the small lemmas of the accessors, so that no proof unfolds a record
update. -/

namespace Sys2Proof.Machine

open Sys2Proof

variable (s : State) (sel : WSel) (w : BitWriter) (c : BitVec 4) (v : Word) (k : Status)

/-! ## complete -/

@[simp] theorem complete_w0 : (complete c v s).w0 = s.w0 := rfl
@[simp] theorem complete_w1 : (complete c v s).w1 = s.w1 := rfl
@[simp] theorem complete_reader : (complete c v s).reader = s.reader := rfl
@[simp] theorem complete_fw : (complete c v s).fw = s.fw := rfl
@[simp] theorem complete_val : (complete c v s).val = s.val := rfl
@[simp] theorem complete_inp : (complete c v s).inp = s.inp := rfl
@[simp] theorem complete_cr : (complete c v s).cr = { status := c, value := v } := rfl
@[simp] theorem complete_pending : (complete c v s).pending = s.pending := rfl

theorem completeOk_eq : completeOk v s = complete 0#4 v s := rfl
theorem raiseError_eq : raiseError k s = complete (statusCode k) 0#32 s := rfl
theorem completeIllegal_eq : completeIllegal s = complete 15#4 0#32 s := rfl

/-! ## setWriter and writerAt -/

@[simp] theorem setWriter_reader : (setWriter s sel w).reader = s.reader := by cases sel <;> rfl
@[simp] theorem setWriter_fw : (setWriter s sel w).fw = s.fw := by cases sel <;> rfl
@[simp] theorem setWriter_val : (setWriter s sel w).val = s.val := by cases sel <;> rfl
@[simp] theorem setWriter_inp : (setWriter s sel w).inp = s.inp := by cases sel <;> rfl
@[simp] theorem setWriter_cr : (setWriter s sel w).cr = s.cr := by cases sel <;> rfl
@[simp] theorem setWriter_pending : (setWriter s sel w).pending = s.pending := by cases sel <;> rfl

@[simp] theorem writerAt_setWriter_same : writerAt (setWriter s sel w) sel = w := by cases sel <;> rfl

theorem writerAt_setWriter_other {other : WSel} (h : other ≠ sel) :
    writerAt (setWriter s sel w) other = writerAt s other := by
  cases sel <;> cases other <;> simp_all [writerAt, setWriter]

@[simp] theorem writerAt_complete : writerAt (complete c v s) sel = writerAt s sel := by cases sel <;> rfl

@[simp] theorem setWriter_setWriter (w' : BitWriter) : setWriter (setWriter s sel w) sel w' = setWriter s sel w' := by
  cases sel <;> rfl

theorem complete_setWriter : complete c v (setWriter s sel w) = setWriter (complete c v s) sel w := by cases sel <;> rfl

@[simp] theorem complete_complete (c' : BitVec 4) (v' : Word) : complete c' v' (complete c v s) = complete c' v' s := rfl

/-- A property of both writers after one is replaced. -/
theorem setWriter_forall {P : BitWriter → Prop} (h0 : P s.w0) (h1 : P s.w1) (hw : P w) :
    P (setWriter s sel w).w0 ∧ P (setWriter s sel w).w1 := by
  cases sel
  · exact ⟨hw, h1⟩
  · exact ⟨h0, hw⟩

/-! ## flags, issue and reset -/

@[simp] theorem setFin_fin : (setFin w).fin = true := rfl
@[simp] theorem setFin_buf : (setFin w).buf = w.buf := rfl
@[simp] theorem setFin_pend : (setFin w).pend = w.pend := rfl
@[simp] theorem setFin_off : (setFin w).off = w.off := rfl

@[simp] theorem clearValid_valid (r : BitReader) : (clearValid r).valid = false := rfl
@[simp] theorem clearValid_pos (r : BitReader) : (clearValid r).pos = r.pos := rfl
@[simp] theorem clearValid_off (r : BitReader) : (clearValid r).off = r.off := rfl
@[simp] theorem clearValid_cur (r : BitReader) : (clearValid r).cur = r.cur := rfl

@[simp] theorem issue_pending (c : Command) : (issue c s).pending = .command c :: s.pending := rfl

@[simp] theorem hostReset_pending : (hostReset s).pending = s.pending := rfl

@[simp] theorem exceeds_none (n : Nat) : exceeds none n = false := rfl
@[simp] theorem exceeds_some (c n : Nat) : exceeds (some c) n = decide (c < n) := rfl

/-- A capacity that is met: every bound it names holds (R59). -/
theorem exceeds_eq_false {cap : Option Nat} {n : Nat} : exceeds cap n = false ↔ ∀ c ∈ cap, n ≤ c := by
  cases cap <;> simp [exceeds]

@[simp] theorem withinCap_none : withinCap none w = .ok w := rfl
@[simp] theorem appendChecked_none (x : Word) (n : Nat) : appendChecked none w x n = .ok (appendBitsOf w x n) := rfl
@[simp] theorem finishChecked_none : finishChecked none w = .ok (finishOf w) := rfl

end Sys2Proof.Machine
end

