-- ==== Sys2Proof/Laws/Reader.lean ====
section
/-! SUPPORT. What the reader's procedures do, said once each: the number a read returns (R141, R145), the position, the invariant
RI (R23), and when a read fails. -/

namespace Sys2Proof.Machine

open Sys2Proof

/-- RI in terms of the position (R23, R24). -/
theorem readerInv_iff {inp : List Byte} {r : BitReader} :
    ReaderInv inp r ↔ bitPos r ≤ 8 * inp.length ∧ (r.off ≠ 0 → inp[r.pos]? = some r.cur) := by
  have := r.off.isLt
  have h0 : r.off = 0 ↔ r.off.val = 0 := Fin.ext_iff
  unfold ReaderInv bitPos
  constructor
  · rintro ⟨h1, h2, h3⟩
    refine ⟨?_, h3⟩
    by_cases h : r.pos = inp.length
    · have := h0.1 (h2 h); omega
    · omega
  · rintro ⟨h1, h3⟩
    exact ⟨by omega, fun h => h0.2 (by omega), h3⟩

theorem readerInv_initReader (inp : List Byte) : ReaderInv inp initReader := by
  rw [readerInv_iff]; simp [initReader, bitPos]

@[simp] theorem bitPos_initReader : bitPos initReader = 0 := rfl

@[simp] theorem initReader_valid : initReader.valid = true := rfl

/-- A bit of a byte buffer (R51): bit `7 − (t mod 8)` of byte `t div 8`. -/
theorem bytesBits_getElem? (inp : List Byte) (p : Nat) (i : Fin 8) :
    (bytesBits inp)[8 * p + i.val]? = (inp[p]?).map fun b => b.getLsbD (7 - i.val) := by
  have h := bytesBits_drop inp p
  have h1 : (bytesBits inp)[8 * p + i.val]? = (bytesBits (inp.drop p))[i.val]? := by
    rw [← h, List.getElem?_drop]
  have h2 : inp[p]? = (inp.drop p)[0]? := by rw [List.getElem?_drop]; rfl
  rw [h1, h2]
  cases inp.drop p with
  | nil => simp
  | cons b bs =>
    rw [bytesBits_cons, List.getElem?_append_left (by simp)]
    have bitsOf : natBits b.toNat 8 = [b.getLsbD 7, b.getLsbD 6, b.getLsbD 5, b.getLsbD 4,
        b.getLsbD 3, b.getLsbD 2, b.getLsbD 1, b.getLsbD 0] := rfl
    rw [bitsOf]
    fin_cases i <;> rfl

/-! ## takeBit -/

@[simp] theorem takeBit_valid (inp : List Byte) (r : BitReader) : (takeBit inp r).2.valid = r.valid := by
  unfold takeBit
  simp only
  split <;> rfl

/-- The position moves by one bit (R141). -/
theorem bitPos_takeBit (inp : List Byte) (r : BitReader) : bitPos (takeBit inp r).2 = bitPos r + 1 := by
  have hlt := r.off.isLt
  unfold takeBit bitPos
  simp only
  split
  · rename_i h
    have := congrArg Fin.val h
    simp at this ⊢
    omega
  · rename_i h
    have : r.off.val ≠ 7 := fun e => h (Fin.ext e)
    simp [Fin.val_add]
    omega

/-- The byte `takeBit` looks at is the one at the position. -/
theorem takeBit_byte {inp : List Byte} {r : BitReader} (hcur : r.off ≠ 0 → inp[r.pos]? = some r.cur)
    (h : bitPos r < 8 * inp.length) :
    inp[r.pos]? = some (if r.off = 0 then memRead inp r.pos else r.cur) := by
  have hpos : r.pos < inp.length := by unfold bitPos at h; omega
  split
  · simp [memRead, List.getD_eq_getElem?_getD, hpos]
  · exact hcur ‹_›

/-- One bit is read from inside `IN`, is the bit at the position, and the cursor stays in step with `IN`. -/
theorem takeBit_spec {inp : List Byte} {r : BitReader} (hcur : r.off ≠ 0 → inp[r.pos]? = some r.cur)
    (h : bitPos r < 8 * inp.length) :
    (bytesBits inp)[bitPos r]? = some (takeBit inp r).1 ∧
      ((takeBit inp r).2.off ≠ 0 → inp[(takeBit inp r).2.pos]? = some (takeBit inp r).2.cur) := by
  have hb := takeBit_byte hcur h
  constructor
  · rw [bitPos, bytesBits_getElem?, hb]; rfl
  · unfold takeBit
    simp only
    split
    · simp
    · intro _; exact hb

/-! ## takeLoop and takeBitsOf (R141) -/

theorem acc_shift (n : Nat) (b : Bool) : (n <<< 1) ||| b.toNat = 2 * n + b.toNat := by
  have hb : b.toNat < 2 ^ 1 := by cases b <;> decide
  rw [← Nat.shiftLeft_add_eq_or_of_lt hb, Nat.shiftLeft_eq]
  omega

@[simp] theorem takeLoop_valid (inp : List Byte) (k : Nat) (r : BitReader) (acc : Nat) :
    (takeLoop inp k r acc).2.valid = r.valid := by
  induction k generalizing r acc with
  | zero => rfl
  | succ k ih => rw [takeLoop, ih, takeBit_valid]

theorem bitPos_takeLoop (inp : List Byte) (k : Nat) (r : BitReader) (acc : Nat) :
    bitPos (takeLoop inp k r acc).2 = bitPos r + k := by
  induction k generalizing r acc with
  | zero => rfl
  | succ k ih => rw [takeLoop, ih, bitPos_takeBit]; omega

/-- The loop reads the next `k` bits of `IN`, the first the most significant, and keeps the cursor in step with `IN`. -/
theorem takeLoop_spec {inp : List Byte} (k : Nat) {r : BitReader} (acc : Nat)
    (hcur : r.off ≠ 0 → inp[r.pos]? = some r.cur) (h : bitPos r + k ≤ 8 * inp.length) :
    (takeLoop inp k r acc).1 = acc * 2 ^ k + bitsNum (((bytesBits inp).drop (bitPos r)).take k) ∧
      ((takeLoop inp k r acc).2.off ≠ 0 →
        inp[(takeLoop inp k r acc).2.pos]? = some (takeLoop inp k r acc).2.cur) := by
  induction k generalizing r acc with
  | zero => exact ⟨by simp [takeLoop], hcur⟩
  | succ k ih =>
    obtain ⟨hbit, hcur'⟩ := takeBit_spec hcur (by omega : bitPos r < 8 * inp.length)
    obtain ⟨h1, h2⟩ := ih ((acc <<< 1) ||| (takeBit inp r).1.toNat) hcur' (by rw [bitPos_takeBit]; omega)
    refine ⟨?_, h2⟩
    obtain ⟨hlt, hget⟩ := List.getElem?_eq_some_iff.1 hbit
    rw [takeLoop, h1, acc_shift, bitPos_takeBit, List.drop_eq_getElem_cons hlt, List.take_succ_cons, bitsNum_cons, hget,
      List.length_take, List.length_drop, bytesBits_length, Nat.min_eq_left (by omega), pow_succ]
    ring

theorem takeBitsOf_eq_none {inp : List Byte} {r : BitReader} {k : Nat} :
    takeBitsOf inp r k = none ↔ remBits inp r < k := by
  unfold takeBitsOf
  split <;> simp [*]

@[simp] theorem takeBitsOf_zero (inp : List Byte) (r : BitReader) : takeBitsOf inp r 0 = some (0, r) := by
  simp [takeBitsOf, takeLoop]

/-- What a successful read is, in any state. -/
theorem takeBitsOf_some {inp : List Byte} {r r' : BitReader} {k v : Nat} (h : takeBitsOf inp r k = some (v, r')) :
    k ≤ remBits inp r ∧ bitPos r' = bitPos r + k ∧ r'.valid = r.valid ∧ v = (takeLoop inp k r 0).1 ∧
      r' = (takeLoop inp k r 0).2 := by
  unfold takeBitsOf at h
  split at h
  · cases h
  · simp only [Option.some.injEq] at h
    have h1 := congrArg Prod.fst h
    have h2 := congrArg Prod.snd h
    simp only at h1 h2
    exact ⟨by omega, by rw [← h2, bitPos_takeLoop], by rw [← h2, takeLoop_valid], h1.symm, h2.symm⟩

/-- Everything a read inside `IN` does (R141). -/
theorem takeBitsOf_spec {inp : List Byte} {r : BitReader} {k : Nat} (hinv : ReaderInv inp r)
    (h : bitPos r + k ≤ 8 * inp.length) :
    ∃ r', takeBitsOf inp r k = some (bitsNum (((bytesBits inp).drop (bitPos r)).take k), r') ∧
      bitPos r' = bitPos r + k ∧ r'.valid = r.valid ∧ ReaderInv inp r' := by
  obtain ⟨_, hcur⟩ := readerInv_iff.1 hinv
  obtain ⟨h1, h2⟩ := takeLoop_spec k 0 hcur h
  refine ⟨(takeLoop inp k r 0).2, ?_, bitPos_takeLoop .., takeLoop_valid .., ?_⟩
  · rw [takeBitsOf, if_neg (by unfold remBits; omega)]
    congr 1
    exact Prod.ext (by simpa using h1) rfl
  · rw [readerInv_iff, bitPos_takeLoop]
    exact ⟨h, h2⟩

/-- A read keeps RI in every case. -/
theorem readerInv_takeBitsOf {inp : List Byte} {r r' : BitReader} {k v : Nat} (hinv : ReaderInv inp r)
    (h : takeBitsOf inp r k = some (v, r')) : ReaderInv inp r' := by
  have hk := (takeBitsOf_some h).1
  have hp := (readerInv_iff.1 hinv).1
  obtain ⟨r'', h1, -, -, h2⟩ := takeBitsOf_spec (k := k) hinv (by unfold remBits at hk; omega)
  rw [h] at h1
  cases h1
  exact h2

/-- The number a read returns is below `2^k` (R141 d). -/
theorem takeLoop_lt (inp : List Byte) (k : Nat) (r : BitReader) (acc : Nat) :
    (takeLoop inp k r acc).1 < (acc + 1) * 2 ^ k := by
  induction k generalizing r acc with
  | zero => simp [takeLoop]
  | succ k ih =>
    refine lt_of_lt_of_le (ih _ _) ?_
    rw [acc_shift, pow_succ, Nat.mul_comm (2 ^ k) 2, ← Nat.mul_assoc]
    refine Nat.mul_le_mul_right _ ?_
    cases (takeBit inp r).1 <;> simp <;> omega

theorem takeBitsOf_lt {inp : List Byte} {r r' : BitReader} {k v : Nat} (h : takeBitsOf inp r k = some (v, r')) :
    v < 2 ^ k := by
  rw [(takeBitsOf_some h).2.2.2.1]
  simpa using takeLoop_lt inp k r 0

/-- Restoring the leading one adds it (R142). -/
theorem restoreLeadingOne_eq {v n : Nat} (hv : v < 2 ^ (n - 1)) : restoreLeadingOne v n = 2 ^ (n - 1) + v := by
  rw [restoreLeadingOne, Nat.lor_comm, ← Nat.shiftLeft_add_eq_or_of_lt hv, Nat.shiftLeft_eq, Nat.one_mul]

end Sys2Proof.Machine
end

