-- ==== Sys2Proof/Laws/Width.lean ====
section
/-! SUPPORT. The natural width (R110, R111): its range, its top bit, and its order. -/

namespace Sys2Proof.Machine

open Sys2Proof

theorem bitWidthBelow_le (v : Word) (n : Nat) : bitWidthBelow v n ≤ n := by
  induction n with
  | zero => exact Nat.le_refl _
  | succ n ih => unfold bitWidthBelow; split <;> omega

/-- Every bit from the result up to `n` is 0, and the bit below the result is 1. -/
theorem bitWidthBelow_spec (v : Word) (n : Nat) :
    (∀ k, bitWidthBelow v n ≤ k → k < n → v.getLsbD k = false) ∧
      (bitWidthBelow v n ≠ 0 → v.getLsbD (bitWidthBelow v n - 1) = true) := by
  induction n with
  | zero => exact ⟨fun k _ h => absurd h (by omega), fun h => absurd rfl h⟩
  | succ n ih =>
    unfold bitWidthBelow
    split
    · rename_i hb
      exact ⟨fun k h1 h2 => absurd h2 (by omega), fun _ => hb⟩
    · rename_i hb
      refine ⟨fun k h1 h2 => ?_, ih.2⟩
      by_cases hk : k = n
      · subst hk; simpa using hb
      · exact ih.1 k h1 (by omega)

theorem bitWidth_le (v : Word) : bitWidth v ≤ 32 := bitWidthBelow_le v 32

theorem getLsbD_of_bitWidth_le {v : Word} {k : Nat} (h : bitWidth v ≤ k) : v.getLsbD k = false := by
  by_cases hk : k < 32
  · exact (bitWidthBelow_spec v 32).1 k h hk
  · exact BitVec.getLsbD_of_ge _ _ (by omega)

theorem getLsbD_bitWidth {v : Word} (h : bitWidth v ≠ 0) : v.getLsbD (bitWidth v - 1) = true :=
  (bitWidthBelow_spec v 32).2 h

/-- `value < 2^BITW(value)` (R111). -/
theorem toNat_lt_bitWidth (v : Word) : v.toNat < 2 ^ bitWidth v := by
  apply Nat.lt_pow_two_of_testBit
  intro i hi
  exact getLsbD_of_bitWidth_le hi

/-- `2^(n−1) ≤ value` (R110). -/
theorem bitWidth_pow_le {v : Word} (h : bitWidth v ≠ 0) : 2 ^ (bitWidth v - 1) ≤ v.toNat :=
  Nat.ge_two_pow_of_testBit (getLsbD_bitWidth h)

/-- The natural width is the least `n` with `value < 2^n`. -/
theorem bitWidth_le_iff {v : Word} {n : Nat} : bitWidth v ≤ n ↔ v.toNat < 2 ^ n := by
  constructor
  · exact fun h => lt_of_lt_of_le (toNat_lt_bitWidth v) (Nat.pow_le_pow_right (by decide) h)
  · intro h
    by_contra hn
    have h0 : bitWidth v ≠ 0 := by omega
    have h1 := bitWidth_pow_le h0
    have h2 : 2 ^ n ≤ 2 ^ (bitWidth v - 1) := Nat.pow_le_pow_right (by decide) (by omega)
    omega

theorem bitWidth_eq_zero {v : Word} : bitWidth v = 0 ↔ v = 0#32 := by
  rw [← Nat.le_zero, bitWidth_le_iff, ← BitVec.toNat_inj]
  simp

/-- The natural width as a value. -/
theorem toNat_ofNat_bitWidth (v : Word) : (BitVec.ofNat 32 (bitWidth v)).toNat = bitWidth v := by
  have := bitWidth_le v
  rw [BitVec.toNat_ofNat]
  exact Nat.mod_eq_of_lt (by omega)

/-- A non-zero value is its leading one and its payload (R92, R142). -/
theorem payloadValue_payBits (v : Word) : payloadValue (bitWidth v) (payBits v) = v := by
  unfold payloadValue payBits
  split
  · rename_i h; exact (bitWidth_eq_zero.1 h).symm
  · rename_i h
    have h1 := bitWidth_pow_le h
    have h2 := toNat_lt_bitWidth v
    obtain ⟨n, hn⟩ := Nat.exists_eq_succ_of_ne_zero h
    rw [hn] at h1 h2 ⊢
    rw [Nat.succ_sub_one] at h1 ⊢
    rw [pow_succ] at h2
    rw [bitsNum_natBits, ← BitVec.toNat_inj, BitVec.toNat_ofNat]
    have : v.toNat % 2 ^ n = v.toNat - 2 ^ n := by
      rw [Nat.mod_eq_sub_mod h1, Nat.mod_eq_of_lt (by omega)]
    rw [this, Nat.add_sub_cancel' h1, Nat.mod_eq_of_lt v.isLt]

end Sys2Proof.Machine
end

