-- ==== Sys2Proof/Laws/Writer.lean ====
section
/-! SUPPORT. What the writer's procedures do, said once each: to the content (R22, R125), the cursor, the invariant WI (R21) and
the buffer (R57). -/

namespace Sys2Proof.Machine

open Sys2Proof

/-! ## pushBit -/

@[simp] theorem pushBit_fin (w : BitWriter) (b : Bool) : (pushBit w b).fin = w.fin := by
  unfold pushBit
  split <;> rfl

/-- A pushed bit makes the stream one bit longer (R127). -/
theorem contentLength_pushBit (w : BitWriter) (b : Bool) :
    contentLength (pushBit w b) = contentLength w + 1 := by
  have hlt := w.off.isLt
  unfold pushBit contentLength
  split
  · rename_i h
    have := congrArg Fin.val h
    simp at this ⊢
    omega
  · rename_i h
    have : w.off.val ≠ 7 := fun e => h (Fin.ext e)
    simp [Fin.val_add]
    omega

theorem pushBit_buf_prefix (w : BitWriter) (b : Bool) : w.buf <+: (pushBit w b).buf := by
  unfold pushBit
  split
  · exact List.prefix_append _ _
  · exact List.prefix_refl _

/-- Bit `i` of the byte a bit is OR-ed into. -/
theorem filled_getLsbD (p : Byte) (b : Bool) (n i : Nat) (hn : n < 8) :
    (p ||| (bitByte b <<< n)).getLsbD i = (p.getLsbD i || (b && decide (i = n))) := by
  cases b
  · simp [bitByte]
  · by_cases h : i = n
    · subst h; simp [bitByte, hn]
    · by_cases h' : i < n
      · simp [bitByte, h, h']
      · have : i - n ≠ 0 := by omega
        simp [bitByte, h, h', this]

/-- The loop of R121 keeps WI: the bit goes to position `7 − off`, lower positions stay 0 (R121 e). -/
theorem writerInv_pushBit {w : BitWriter} (h : WriterInv w) (b : Bool) : WriterInv (pushBit w b) := by
  unfold pushBit
  split
  · intro i _; simp
  · rename_i hoff
    intro i hi
    have hlt := w.off.isLt
    have hv : (w.off + 1).val = w.off.val + 1 := by
      have : w.off.val ≠ 7 := fun e => hoff (Fin.ext e)
      rw [Fin.val_add]; simp; omega
    simp only [hv] at hi
    rw [filled_getLsbD _ _ _ _ (by omega), h i (by omega)]
    have : i ≠ 7 - w.off.val := by omega
    simp [this]

/-- A pushed bit is the next bit of the content (R125). -/
theorem content_pushBit {w : BitWriter} (h : WriterInv w) (b : Bool) : content (pushBit w b) = content w ++ [b] := by
  obtain ⟨buf, pend, off, fin⟩ := w
  have key : ∀ i, (pend ||| (bitByte b <<< (7 - off.val))).getLsbD i =
      (pend.getLsbD i || (b && decide (i = 7 - off.val))) := fun i => filled_getLsbD _ _ _ _ (by omega)
  have hl : pend.getLsbD (7 - off.val) = false := h _ (by have := off.isLt; show 7 - off.val < 8 - off.val; omega)
  have bitsOf : ∀ p : Byte, natBits p.toNat 8 = [p.getLsbD 7, p.getLsbD 6, p.getLsbD 5, p.getLsbD 4,
      p.getLsbD 3, p.getLsbD 2, p.getLsbD 1, p.getLsbD 0] := fun _ => rfl
  unfold pushBit content
  simp only
  split
  · rename_i h7
    subst h7
    simp only [bytesBits_append, bytesBits_singleton, bitsOf, key]
    simp at hl
    simp [hl]
  · rename_i h7
    simp only [bitsOf, key]
    fin_cases off <;> simp at hl h7 <;> simp [hl]

/-! ## appendBitsOf (R121) -/

@[simp] theorem appendBitsOf_zero (w : BitWriter) (x : Word) : appendBitsOf w x 0 = w := rfl

@[simp] theorem appendBitsOf_fin (w : BitWriter) (x : Word) (k : Nat) : (appendBitsOf w x k).fin = w.fin := by
  induction k generalizing w with
  | zero => rfl
  | succ k ih => rw [appendBitsOf, ih, pushBit_fin]

/-- No bit position is skipped (R127). -/
theorem contentLength_appendBitsOf (w : BitWriter) (x : Word) (k : Nat) :
    contentLength (appendBitsOf w x k) = contentLength w + k := by
  induction k generalizing w with
  | zero => rfl
  | succ k ih => rw [appendBitsOf, ih, contentLength_pushBit]; omega

theorem appendBitsOf_buf_prefix (w : BitWriter) (x : Word) (k : Nat) : w.buf <+: (appendBitsOf w x k).buf := by
  induction k generalizing w with
  | zero => exact List.prefix_refl _
  | succ k ih => exact (pushBit_buf_prefix w _).trans (ih _)

theorem writerInv_appendBitsOf {w : BitWriter} (h : WriterInv w) (x : Word) (k : Nat) :
    WriterInv (appendBitsOf w x k) := by
  induction k generalizing w with
  | zero => exact h
  | succ k ih => exact ih (writerInv_pushBit h _)

/-- R125: the content after `AppendBitsOf(s, x, k)`. -/
theorem content_appendBitsOf {w : BitWriter} (h : WriterInv w) (x : Word) (k : Nat) :
    content (appendBitsOf w x k) = content w ++ natBits x.toNat k := by
  induction k generalizing w with
  | zero => simp
  | succ k ih =>
    rw [appendBitsOf, ih (writerInv_pushBit h _), content_pushBit h, natBits_succ, List.append_assoc]
    rfl

/-- R121: the cursor after `k` bits, and how many bytes were pushed. -/
theorem appendBitsOf_cursor (w : BitWriter) (x : Word) (k : Nat) :
    (appendBitsOf w x k).off.val = (w.off.val + k) % 8 ∧
      (appendBitsOf w x k).buf.length = w.buf.length + (w.off.val + k) / 8 := by
  have h := contentLength_appendBitsOf w x k
  have := (appendBitsOf w x k).off.isLt
  have := w.off.isLt
  unfold contentLength at h
  omega

/-- R125: an append may be cut in two. -/
theorem appendBitsOf_add (w : BitWriter) (x : Word) (a b : Nat) :
    appendBitsOf w x (a + b) = appendBitsOf (appendBitsOf w (x >>> b) a) x b := by
  induction a generalizing w with
  | zero => simp
  | succ a ih =>
    rw [Nat.add_right_comm, appendBitsOf, ih, appendBitsOf, BitVec.getLsbD_ushiftRight, Nat.add_comm b a]

/-! ## A writer is its content -/

theorem bytesBits_injective {as bs : List Byte} (h : bytesBits as = bytesBits bs) : as = bs := by
  induction as generalizing bs with
  | nil =>
    cases bs with
    | nil => rfl
    | cons b bs => simpa using congrArg List.length h
  | cons a as ih =>
    cases bs with
    | nil => simpa using congrArg List.length h
    | cons b bs =>
      rw [bytesBits_cons, bytesBits_cons] at h
      obtain ⟨h1, h2⟩ := List.append_inj h (by simp)
      have h3 := congrArg bitsNum h1
      rw [bitsNum_natBits, bitsNum_natBits, Nat.mod_eq_of_lt a.isLt, Nat.mod_eq_of_lt b.isLt] at h3
      rw [ih h2, BitVec.eq_of_toNat_eq h3]

@[simp] theorem content_length (w : BitWriter) : (content w).length = contentLength w := by
  have := w.off.isLt
  simp [content, contentLength]

/-- Two writers with the same content, `fin` and WI are the same writer. -/
theorem writer_ext_of_content {v w : BitWriter} (hv : WriterInv v) (hw : WriterInv w) (hf : v.fin = w.fin)
    (h : content v = content w) : v = w := by
  have hl := congrArg List.length h
  simp only [content_length, contentLength] at hl
  have hoff : v.off = w.off := by
    have := v.off.isLt
    have := w.off.isLt
    apply Fin.ext; omega
  have hbuf : v.buf.length = w.buf.length := by rw [hoff] at hl; omega
  obtain ⟨h1, h2⟩ := List.append_inj h (by simp [hbuf])
  have hpend : v.pend = w.pend := by
    apply BitVec.eq_of_getLsbD_eq
    intro i hi
    by_cases hlow : i < 8 - v.off.val
    · rw [hv i hlow, hw i (hoff ▸ hlow)]
    · have h3 := congrArg (fun l => l[7 - i]?) h2
      rw [hoff] at hlow
      have hlt : 7 - i < w.off.val := by omega
      have bitsOf : ∀ p : Byte, natBits p.toNat 8 = [p.getLsbD 7, p.getLsbD 6, p.getLsbD 5, p.getLsbD 4,
          p.getLsbD 3, p.getLsbD 2, p.getLsbD 1, p.getLsbD 0] := fun _ => rfl
      simp only [hoff, bitsOf, List.getElem?_take, hlt, if_true] at h3
      interval_cases i <;> simpa using h3
  obtain ⟨vb, vp, vo, vf⟩ := v
  obtain ⟨wb, wp, wo, wf⟩ := w
  have hb : vb = wb := bytesBits_injective h1
  simp_all

/-! ## initWriter and finishOf (R120, R123) -/

theorem writerInv_initWriter : WriterInv initWriter := by
  intro i _; simp [initWriter]

@[simp] theorem content_initWriter : content initWriter = [] := rfl

@[simp] theorem contentLength_initWriter : contentLength initWriter = 0 := rfl

@[simp] theorem initWriter_fin : initWriter.fin = false := rfl

@[simp] theorem finishOf_fin (w : BitWriter) : (finishOf w).fin = true := rfl
@[simp] theorem finishOf_pend (w : BitWriter) : (finishOf w).pend = 0x00#8 := rfl
@[simp] theorem finishOf_off (w : BitWriter) : (finishOf w).off = 0 := rfl

theorem finishOf_buf (w : BitWriter) :
    (finishOf w).buf = w.buf ++ (if w.off = 0 then [] else [w.pend]) := by
  unfold finishOf
  split <;> simp [*]

/-- A finished writer is its buffer. -/
theorem finishOf_eq (w : BitWriter) :
    finishOf w = { buf := (finishOf w).buf, pend := 0x00#8, off := 0, fin := true } := rfl

theorem writerInv_finishOf (w : BitWriter) : WriterInv (finishOf w) := by
  intro i _; simp

theorem finishedInv_finishOf (w : BitWriter) : FinishedInv (finishOf w) := fun _ => ⟨rfl, rfl⟩

theorem finishOf_buf_prefix (w : BitWriter) : w.buf <+: (finishOf w).buf := by
  rw [finishOf_buf]; exact List.prefix_append _ _

theorem finishOf_buf_length (w : BitWriter) : (finishOf w).buf.length = ceil8 (contentLength w) := by
  have := w.off.isLt
  rw [finishOf_buf, contentLength, ceil8]
  by_cases h : w.off = 0
  · simp [h]; omega
  · have : w.off.val ≠ 0 := fun e => h (Fin.ext e)
    simp [h]; omega

/-- R123: the buffer after `FINISH` is the whole content and the zero pad. -/
theorem bytesBits_finishOf {w : BitWriter} (h : WriterInv w) :
    bytesBits (finishOf w).buf = content w ++ List.replicate (padLength (contentLength w)) false := by
  have hlt := w.off.isLt
  have hp : padLength (contentLength w) = (8 - w.off.val) % 8 := by
    simp only [padLength, contentLength]; omega
  have hz : natBits w.pend.toNat (8 - w.off.val) = List.replicate (8 - w.off.val) false := by
    rw [← natBits_of_zero]
    exact natBits_congr fun i hi => by rw [Nat.zero_testBit]; exact h i hi
  rw [finishOf_buf, bytesBits_append, hp, content, List.append_assoc]
  congr 1
  by_cases h0 : w.off = 0
  · simp [h0]
  · have hv : w.off.val ≠ 0 := fun e => h0 (Fin.ext e)
    rw [if_neg h0, bytesBits_singleton, Nat.mod_eq_of_lt (by omega : 8 - w.off.val < 8), ← hz,
      natBits_take _ hlt.le, ← natBits_split _ hlt.le]

end Sys2Proof.Machine
end

