-- ==== Sys2Proof/Laws/Coder.lean ====
section
/-! SUPPORT. What the procedures of `ENCODE` (R160) and `DECODE` (R180) do, said once each, and that a finite capacity only ever
refuses (R59). -/

namespace Sys2Proof.Machine

open Sys2Proof

/-! ## Capacities -/

/-- A checked procedure under a capacity gives what it gives under none, or is refused for the capacity. -/
def SameOrExceeds {α : Type} (bounded unbounded : Except Stop α) : Prop :=
  bounded = unbounded ∨ bounded = .error (.refuse .capacityExceeded)

theorem withinCap_same (cap : Option Nat) (w : BitWriter) : SameOrExceeds (withinCap cap w) (.ok w) := by
  unfold withinCap
  split
  · exact .inr rfl
  · exact .inl rfl

theorem appendChecked_same (cap : Option Nat) (w : BitWriter) (x : Word) (k : Nat) :
    SameOrExceeds (appendChecked cap w x k) (appendChecked none w x k) := withinCap_same _ _

theorem finishChecked_same (cap : Option Nat) (w : BitWriter) :
    SameOrExceeds (finishChecked cap w) (finishChecked none w) := withinCap_same _ _

/-- A writer that passed the test is within the capacity. -/
theorem withinCap_ok {cap : Option Nat} {w w' : BitWriter} (h : withinCap cap w = .ok w') :
    w' = w ∧ ∀ c ∈ cap, w'.buf.length ≤ c := by
  unfold withinCap at h
  split at h
  · cases h
  · rename_i hx
    cases h
    exact ⟨rfl, exceeds_eq_false.1 (Bool.eq_false_iff.2 hx)⟩

/-! ## One field (R160 step 2) -/

/-- What one field that passes its checks leaves: `spec(i)` on `W[0]`, `pay(i)` on `W[1]`, the payload bits counted. -/
def fieldResult (w : Byte) (v : Word) (e : Scratch) : Scratch :=
  { w0 := appendBitsOf e.w0 (BitVec.ofNat 32 (bitWidth v)) w.toNat
    w1 := appendBitsOf e.w1 v (bitWidth v - 1)
    pbits := e.pbits + (bitWidth v - 1) }

theorem appendPayload_none (w : BitWriter) (v : Word) (n : Nat) :
    appendPayload none w v n = .ok (appendBitsOf w v (n - 1)) := by
  unfold appendPayload
  split
  · rfl
  · rw [show n - 1 = 0 by omega]; rfl

/-- The three ways one field ends, in the order of R161. -/
theorem encodeField_none (w : Byte) (v : Word) (e : Scratch) :
    encodeField none w v e =
      if w = 0#8 then .error (.raise 2#4)
      else if 2 ^ w.toNat - 1 < bitWidth v then .error (.raise 3#4)
      else .ok (fieldResult w v e) := by
  unfold encodeField maxNaturalWidth
  split
  · rfl
  · split
    · rename_i h
      rw [h, if_neg (by omega)]
      simp [fieldResult, h]
    · split
      · rfl
      · simp [appendPayload_none, fieldResult]

theorem encodeField_same (cap : Option Nat) (w : Byte) (v : Word) (e : Scratch) :
    SameOrExceeds (encodeField cap w v e) (encodeField none w v e) := by
  unfold encodeField
  split
  · exact .inl rfl
  · split
    · rcases appendChecked_same cap e.w0 0#32 w.toNat with h | h <;> rw [h]
      · exact .inl rfl
      · exact .inr rfl
    · split
      · exact .inl rfl
      · rcases appendChecked_same cap e.w0 (BitVec.ofNat 32 (bitWidth v)) w.toNat with h | h <;> rw [h]
        · have hp : SameOrExceeds (appendPayload cap e.w1 v (bitWidth v)) (appendPayload none e.w1 v (bitWidth v)) := by
            unfold appendPayload
            split
            · exact appendChecked_same ..
            · exact .inl rfl
          rw [appendChecked_none]
          rcases hp with h' | h' <;> simp only [h']
          · exact .inl rfl
          · exact .inr rfl
        · exact .inr rfl

/-! ## The fields (R160 step 2) -/

theorem encodeFields_same (cap : Option Nat) (ws : List Byte) (vs : List Word) (e : Scratch) :
    SameOrExceeds (encodeFields cap ws vs e) (encodeFields none ws vs e) := by
  induction ws generalizing vs e with
  | nil => exact .inl rfl
  | cons w ws ih =>
    cases vs with
    | nil => exact .inl rfl
    | cons v vs =>
      unfold encodeFields
      rcases encodeField_same cap w v e with h | h <;> rw [h]
      · split
        · exact .inl rfl
        · exact ih _ _
      · exact .inr rfl

/-- The fields that pass their checks, in index order. -/
def fieldsResult : List Byte → List Word → Scratch → Scratch
  | w :: ws, v :: vs, e => fieldsResult ws vs (fieldResult w v e)
  | _, _, e => e

theorem encodeField_fits {w : Byte} {v : Word} (h : FieldFits w v) (e : Scratch) :
    encodeField none w v e = .ok (fieldResult w v e) := by
  rw [encodeField_none, if_neg h.1, if_neg (by have := h.2; omega)]

/-- Fields that all pass are encoded, and the rest follows. -/
theorem encodeFields_append {ws : List Byte} {vs : List Word} (hl : ws.length = vs.length)
    (h : ∀ f ∈ ws.zip vs, FieldFits f.1 f.2) (ws' : List Byte) (vs' : List Word) (e : Scratch) :
    encodeFields none (ws ++ ws') (vs ++ vs') e = encodeFields none ws' vs' (fieldsResult ws vs e) := by
  induction ws generalizing vs e with
  | nil => cases vs <;> simp_all [fieldsResult]
  | cons w ws ih =>
    cases vs with
    | nil => simp at hl
    | cons v vs =>
      rw [List.cons_append, List.cons_append, encodeFields, encodeField_fits (h (w, v) (by simp))]
      exact ih (by simpa using hl) (fun f hf => h f (by simp [hf])) _

theorem encodeFields_fits {ws : List Byte} {vs : List Word} (hl : ws.length = vs.length)
    (h : ∀ f ∈ ws.zip vs, FieldFits f.1 f.2) (e : Scratch) :
    encodeFields none ws vs e = .ok (fieldsResult ws vs e) := by
  have := encodeFields_append hl h [] [] e
  simpa [encodeFields] using this

/-- Fields that were all encoded passed their checks. -/
theorem encodeFields_ok {ws : List Byte} {vs : List Word} (hl : ws.length = vs.length) {e e' : Scratch}
    (h : encodeFields none ws vs e = .ok e') : ∀ f ∈ ws.zip vs, FieldFits f.1 f.2 := by
  induction ws generalizing vs e with
  | nil => simp
  | cons w ws ih =>
    cases vs with
    | nil => simp
    | cons v vs =>
      rw [encodeFields, encodeField_none] at h
      split at h
      · cases h
      · rename_i e1 heq
        split at heq
        · cases heq
        · split at heq
          · cases heq
          · rename_i h1 h2
            intro f hf
            rcases List.mem_cons.1 hf with rfl | hf
            · exact ⟨h1, by simpa using h2⟩
            · exact ih (by simpa using hl) h f hf

/-- An error of the fields is `ZeroFieldWidth` or `ValueTooLarge`. -/
theorem encodeFields_error {ws : List Byte} {vs : List Word} {e : Scratch} {stop : Stop}
    (h : encodeFields none ws vs e = .error stop) : stop = .raise 2#4 ∨ stop = .raise 3#4 := by
  induction ws generalizing vs e with
  | nil => cases h
  | cons w ws ih =>
    cases vs with
    | nil => cases h
    | cons v vs =>
      rw [encodeFields, encodeField_none] at h
      split at h
      · rename_i s1 heq
        cases h
        split at heq
        · cases heq; exact .inl rfl
        · split at heq
          · cases heq; exact .inr rfl
          · cases heq
      · exact ih h

/-- The two streams of open writers after the fields (R90). -/
theorem fieldsResult_spec {ws : List Byte} {vs : List Word} (hl : ws.length = vs.length) {e : Scratch}
    (h0 : WriterInv e.w0) (h1 : WriterInv e.w1) :
    content (fieldsResult ws vs e).w0 = content e.w0 ++ specStream ws vs ∧
      content (fieldsResult ws vs e).w1 = content e.w1 ++ payStream vs ∧
      (fieldsResult ws vs e).pbits = e.pbits + payloadSum (vs.map bitWidth) ∧
      WriterInv (fieldsResult ws vs e).w0 ∧ WriterInv (fieldsResult ws vs e).w1 ∧
      (fieldsResult ws vs e).w0.fin = e.w0.fin := by
  induction ws generalizing vs e with
  | nil =>
    cases vs with
    | nil => exact ⟨by simp [fieldsResult, specStream], by simp [fieldsResult, payStream], rfl, h0, h1, rfl⟩
    | cons v vs => simp at hl
  | cons w ws ih =>
    cases vs with
    | nil => simp at hl
    | cons v vs =>
      have h0' := writerInv_appendBitsOf h0 (BitVec.ofNat 32 (bitWidth v)) w.toNat
      have h1' := writerInv_appendBitsOf h1 v (bitWidth v - 1)
      obtain ⟨i1, i2, i3, i4, i5, i6⟩ := ih (vs := vs) (e := fieldResult w v e) (by simpa using hl) h0' h1'
      rw [fieldsResult]
      refine ⟨?_, ?_, ?_, i4, i5, ?_⟩
      · rw [i1, fieldResult, content_appendBitsOf h0, toNat_ofNat_bitWidth]
        simp [specStream, specBits]
      · rw [i2, fieldResult, content_appendBitsOf h1]
        simp [payStream, payBits]
      · rw [i3, fieldResult]
        simp [payloadSum, Nat.add_assoc]
      · rw [i6, fieldResult, appendBitsOf_fin]

theorem specStream_length {ws : List Byte} {vs : List Word} (hl : ws.length = vs.length) :
    (specStream ws vs).length = widthSum ws := by
  induction ws generalizing vs with
  | nil => cases vs <;> rfl
  | cons w ws ih =>
    cases vs with
    | nil => simp at hl
    | cons v vs =>
      have := ih (vs := vs) (by simpa using hl)
      simp [specStream, widthSum, specBits] at this ⊢
      omega

theorem payStream_length (vs : List Word) : (payStream vs).length = payloadSum (vs.map bitWidth) := by
  induction vs with
  | nil => rfl
  | cons v vs ih =>
    simp [payStream, payloadSum, payBits] at ih ⊢
    omega

/-! ## Re-emission (R160 step 4) -/

/-- The payload bits in a finished payload stream, without its pad, appended to a writer. -/
theorem reemitBytes_none {w : BitWriter} (h : WriterInv w) (bs : List Byte) :
    ∃ w', reemitBytes none w bs = .ok w' ∧ content w' = content w ++ bytesBits bs ∧ WriterInv w' ∧ w'.fin = w.fin := by
  induction bs generalizing w with
  | nil => exact ⟨w, rfl, by simp, h, rfl⟩
  | cons b bs ih =>
    obtain ⟨w', h1, h2, h3, h4⟩ := ih (writerInv_appendBitsOf h (b.setWidth 32) 8)
    refine ⟨w', ?_, ?_, h3, ?_⟩
    · rw [reemitBytes, appendChecked_none]; exact h1
    · rw [h2, content_appendBitsOf h, bytesBits_cons, List.append_assoc, BitVec.toNat_setWidth,
        Nat.mod_eq_of_lt (by have := b.isLt; omega)]
    · rw [h4, appendBitsOf_fin]

theorem reemit_none {w : BitWriter} (h : WriterInv w) {payload : List Byte} {n : Nat} (hn : n ≤ 8 * payload.length) :
    ∃ w', reemit none w payload n = .ok w' ∧ content w' = content w ++ (bytesBits payload).take n ∧ WriterInv w' ∧
      w'.fin = w.fin := by
  obtain ⟨w', h1, h2, h3, h4⟩ := reemitBytes_none h (payload.take (n / 8))
  have hsplit : (bytesBits payload).take n =
      bytesBits (payload.take (n / 8)) ++ (bytesBits (payload.drop (n / 8))).take (n % 8) := by
    rw [← bytesBits_take, ← bytesBits_drop, ← List.take_add]
    congr 1; omega
  unfold reemit
  rw [h1]
  simp only
  split
  · rename_i h0
    refine ⟨w', rfl, ?_, h3, h4⟩
    rw [h2, hsplit, h0]; simp
  · rename_i h0
    have hlt : n / 8 < payload.length := by omega
    refine ⟨_, rfl, ?_, writerInv_appendBitsOf h3 _ _, by rw [appendBitsOf_fin, h4]⟩
    rw [content_appendBitsOf h3, h2, hsplit, List.append_assoc]
    congr 2
    rw [List.drop_eq_getElem_cons hlt, bytesBits_cons, List.take_append_of_le_length (by simp; omega),
      natBits_take _ (by omega), memRead, List.getD_eq_getElem?_getD, List.getElem?_eq_getElem hlt, Option.getD_some,
      BitVec.toNat_setWidth, BitVec.toNat_ushiftRight]
    congr 1
    apply Nat.mod_eq_of_lt
    exact lt_of_le_of_lt (Nat.shiftRight_le _ _) (by have := (payload[n / 8]).isLt; omega)

theorem reemitBytes_same (cap : Option Nat) (w : BitWriter) (bs : List Byte) :
    SameOrExceeds (reemitBytes cap w bs) (reemitBytes none w bs) := by
  induction bs generalizing w with
  | nil => exact .inl rfl
  | cons b bs ih =>
    unfold reemitBytes
    rcases appendChecked_same cap w (b.setWidth 32) 8 with h | h <;> rw [h]
    · rw [appendChecked_none]; exact ih _
    · exact .inr rfl

theorem reemit_same (cap : Option Nat) (w : BitWriter) (payload : List Byte) (n : Nat) :
    SameOrExceeds (reemit cap w payload n) (reemit none w payload n) := by
  unfold reemit
  rcases reemitBytes_same cap w (payload.take (n / 8)) with h | h <;> rw [h]
  · split
    · exact .inl rfl
    · split
      · exact .inl rfl
      · exact appendChecked_same ..
  · exact .inr rfl

/-! ## The whole of ENCODE (R160) -/

theorem encodeTail_same (cap : Option Nat) (e : Scratch) : SameOrExceeds (encodeTail cap e) (encodeTail none e) := by
  unfold encodeTail
  rcases finishChecked_same cap e.w1 with h | h <;> rw [h]
  · rw [finishChecked_none]
    simp only
    rcases reemit_same cap e.w0 (finishOf e.w1).buf e.pbits with h' | h' <;> rw [h']
    · split
      · exact .inl rfl
      · exact finishChecked_same ..
    · exact .inr rfl
  · exact .inr rfl

theorem encodeBody_same (cap : Option Nat) (fw : List Byte) (vs : List Word) :
    SameOrExceeds (encodeBody cap fw vs) (encodeBody none fw vs) := by
  unfold encodeBody
  split
  · exact .inl rfl
  · rcases encodeFields_same cap fw vs initScratch with h | h <;> rw [h]
    · split
      · exact .inl rfl
      · exact encodeTail_same ..
    · exact .inr rfl

/-- A result within the test: an encoded writer is finished and within the capacity. -/
theorem encodeBody_ok {cap : Option Nat} {fw : List Byte} {vs : List Word} {w : BitWriter}
    (h : encodeBody cap fw vs = .ok w) :
    (∃ w', w = finishOf w') ∧ fw.length = vs.length ∧ (∀ c ∈ cap, w.buf.length ≤ c) := by
  unfold encodeBody at h
  split at h
  · cases h
  · rename_i hl
    split at h
    · cases h
    · unfold encodeTail at h
      split at h
      · cases h
      · split at h
        · cases h
        · obtain ⟨h1, h2⟩ := withinCap_ok h
          exact ⟨⟨_, h1⟩, by simpa using hl, h2⟩

/-- What a successful `ENCODE` leaves in `W[0]`: both streams, finished (R90, R163). -/
theorem encodeBody_fits {fw : List Byte} {vs : List Word} (hl : fw.length = vs.length)
    (h : ∀ f ∈ fw.zip vs, FieldFits f.1 f.2) :
    ∃ w, encodeBody none fw vs = .ok (finishOf w) ∧ content w = specStream fw vs ++ payStream vs ∧ WriterInv w ∧
      w.fin = false := by
  obtain ⟨c0, c1, hp, i0, i1, hf⟩ :=
    fieldsResult_spec hl (e := initScratch) writerInv_initWriter writerInv_initWriter
  have hc1 : content (fieldsResult fw vs initScratch).w1 = payStream vs := by simpa [initScratch] using c1
  have hc0 : content (fieldsResult fw vs initScratch).w0 = specStream fw vs := by simpa [initScratch] using c0
  have hpb : (fieldsResult fw vs initScratch).pbits = (payStream vs).length := by
    rw [hp, payStream_length]; simp [initScratch]
  have hbits := bytesBits_finishOf i1
  have hlen : (payStream vs).length ≤ 8 * (finishOf (fieldsResult fw vs initScratch).w1).buf.length := by
    rw [← bytesBits_length, hbits, hc1]; simp
  obtain ⟨w, h1, h2, h3, h4⟩ := reemit_none i0 hlen
  refine ⟨w, ?_, ?_, h3, by rw [h4, hf]; rfl⟩
  · unfold encodeBody
    rw [if_neg (by simpa using hl), encodeFields_fits hl h]
    simp only [encodeTail, finishChecked_none, hpb, h1]
  · rw [h2, hc0, hbits, hc1, List.take_left' rfl]

/-- The errors `ENCODE` can raise (R201). -/
theorem encodeBody_error {fw : List Byte} {vs : List Word} {stop : Stop} (h : encodeBody none fw vs = .error stop) :
    stop = .raise 1#4 ∨ stop = .raise 2#4 ∨ stop = .raise 3#4 := by
  by_cases hl : fw.length = vs.length
  · have h' := h
    unfold encodeBody at h
    rw [if_neg (by simpa using hl)] at h
    split at h
    · rename_i heq
      cases h
      rcases encodeFields_error heq with h | h
      · exact .inr (.inl h)
      · exact .inr (.inr h)
    · rename_i e heq
      obtain ⟨w, hw, -⟩ := encodeBody_fits hl (encodeFields_ok hl heq)
      rw [hw] at h'
      cases h'
  · unfold encodeBody at h
    rw [if_pos hl] at h
    cases h
    exact .inl rfl

/-! ## The passes of DECODE (R180) -/

/-- The first pass over a stream long enough reads the specifiers (R183). -/
theorem specifierPass_done {inp : List Byte} (ws : List Byte) {r : BitReader} (hinv : ReaderInv inp r)
    (h : bitPos r + widthSum ws ≤ 8 * inp.length) :
    ∃ r', specifierPass inp ws r = .done (specsOf ((bytesBits inp).drop (bitPos r)) ws) r' ∧
      bitPos r' = bitPos r + widthSum ws ∧ ReaderInv inp r' := by
  induction ws generalizing r with
  | nil => exact ⟨r, rfl, rfl, hinv⟩
  | cons w ws ih =>
    have hs : widthSum (w :: ws) = w.toNat + widthSum ws := by simp [widthSum]
    rw [hs] at h ⊢
    obtain ⟨r1, h1, h2, -, h4⟩ := takeBitsOf_spec (k := w.toNat) hinv (by omega)
    obtain ⟨r2, h5, h6, h7⟩ := ih h4 (by omega)
    refine ⟨r2, ?_, by omega, h7⟩
    rw [specifierPass, h1]
    simp only [h5, consPass, specsOf, h2, List.drop_drop]

/-- The first pass over a stream too short ends in `OutOfData` (R183). -/
theorem specifierPass_short {inp : List Byte} (ws : List Byte) {r : BitReader} (hinv : ReaderInv inp r)
    (h : 8 * inp.length < bitPos r + widthSum ws) : ∃ r', specifierPass inp ws r = .outOfData r' := by
  induction ws generalizing r with
  | nil =>
    have := (readerInv_iff.1 hinv).1
    simp [widthSum] at h
    omega
  | cons w ws ih =>
    have hs : widthSum (w :: ws) = w.toNat + widthSum ws := by simp [widthSum]
    rw [hs] at h
    rw [specifierPass]
    cases ht : takeBitsOf inp r w.toNat with
    | none => exact ⟨r, rfl⟩
    | some p =>
      obtain ⟨v, r1⟩ := p
      have h2 := (takeBitsOf_some ht).2.1
      obtain ⟨r2, h3⟩ := ih (readerInv_takeBitsOf hinv ht) (by omega)
      exact ⟨r2, by simp [h3, consPass]⟩

/-- One field of the second pass that is neither overlong nor out of data. -/
theorem payloadPass_cons {inp : List Byte} {r : BitReader} (hinv : ReaderInv inp r) {nw : Nat} (hnw : nw ≤ 32)
    (h : bitPos r + (nw - 1) ≤ 8 * inp.length) (nws : List Nat) :
    ∃ r', payloadPass inp (nw :: nws) r =
        consPass (payloadValue nw (((bytesBits inp).drop (bitPos r)).take (nw - 1))) (payloadPass inp nws r') ∧
      bitPos r' = bitPos r + (nw - 1) ∧ ReaderInv inp r' := by
  rw [payloadPass, if_neg (by omega)]
  by_cases h0 : nw = 0
  · subst h0
    exact ⟨r, rfl, rfl, hinv⟩
  · obtain ⟨r1, h1, h2, -, h4⟩ := takeBitsOf_spec (k := nw - 1) hinv h
    refine ⟨r1, ?_, h2, h4⟩
    rw [if_neg h0, payloadBits, h1]
    simp only
    rw [restoreLeadingOne_eq (takeBitsOf_lt h1), payloadValue, if_neg h0]

/-- The second pass up to a field before which nothing is overlong or out of data. -/
theorem payloadPass_append {inp : List Byte} (before : List Nat) {r : BitReader} (hinv : ReaderInv inp r)
    (hle : ∀ n ∈ before, n ≤ 32) (h : bitPos r + payloadSum before ≤ 8 * inp.length) (after : List Nat) :
    ∃ r', payloadPass inp (before ++ after) r =
        (valuesOf ((bytesBits inp).drop (bitPos r)) before).foldr consPass (payloadPass inp after r') ∧
      bitPos r' = bitPos r + payloadSum before ∧ ReaderInv inp r' := by
  induction before generalizing r with
  | nil => exact ⟨r, rfl, rfl, hinv⟩
  | cons nw nws ih =>
    have hs : payloadSum (nw :: nws) = (nw - 1) + payloadSum nws := by simp [payloadSum]
    rw [hs] at h ⊢
    obtain ⟨r1, h1, h2, h3⟩ := payloadPass_cons hinv (hle nw (by simp)) (by omega) (nws ++ after)
    obtain ⟨r2, h4, h5, h6⟩ := ih h3 (fun n hn => hle n (by simp [hn])) (by omega)
    refine ⟨r2, ?_, by omega, h6⟩
    rw [List.cons_append, h1, h4, valuesOf, List.foldr_cons, h2, List.drop_drop]

theorem foldr_consPass_done {α : Type} (xs ys : List α) (r : BitReader) :
    xs.foldr consPass (.done ys r) = .done (xs ++ ys) r := by
  induction xs with
  | nil => rfl
  | cons x xs ih => rw [List.foldr_cons, ih]; rfl

theorem foldr_consPass_outOfData {α : Type} (xs : List α) (r : BitReader) :
    xs.foldr consPass (.outOfData r) = .outOfData r := by
  induction xs with
  | nil => rfl
  | cons x xs ih => rw [List.foldr_cons, ih]; rfl

theorem foldr_consPass_overlong {α : Type} (xs : List α) (r : BitReader) :
    xs.foldr consPass (.overlong r) = .overlong r := by
  induction xs with
  | nil => rfl
  | cons x xs ih => rw [List.foldr_cons, ih]; rfl

/-- The second pass over a stream long enough reads the values (R183). -/
theorem payloadPass_done {inp : List Byte} (nws : List Nat) {r : BitReader} (hinv : ReaderInv inp r)
    (hle : ∀ n ∈ nws, n ≤ 32) (h : bitPos r + payloadSum nws ≤ 8 * inp.length) :
    ∃ r', payloadPass inp nws r = .done (valuesOf ((bytesBits inp).drop (bitPos r)) nws) r' ∧
      bitPos r' = bitPos r + payloadSum nws ∧ ReaderInv inp r' := by
  obtain ⟨r', h1, h2, h3⟩ := payloadPass_append nws hinv hle h []
  refine ⟨r', ?_, h2, h3⟩
  rw [List.append_nil] at h1
  rw [h1, payloadPass, foldr_consPass_done, List.append_nil]

/-- The second pass over a stream that ends within the first `k` fields, none of them overlong, ends in `OutOfData` (R183). -/
theorem payloadPass_short {inp : List Byte} (nws : List Nat) (k : Nat) {r : BitReader} (hinv : ReaderInv inp r)
    (hle : ∀ n ∈ nws.take k, n ≤ 32) (h : 8 * inp.length < bitPos r + payloadSum (nws.take k)) :
    ∃ r', payloadPass inp nws r = .outOfData r' := by
  induction nws generalizing k r with
  | nil =>
    have := (readerInv_iff.1 hinv).1
    simp [payloadSum] at h
    omega
  | cons nw nws ih =>
    cases k with
    | zero =>
      have := (readerInv_iff.1 hinv).1
      simp [payloadSum] at h
      omega
    | succ k =>
      rw [List.take_succ_cons] at hle h
      have hs : payloadSum (nw :: nws.take k) = (nw - 1) + payloadSum (nws.take k) := by simp [payloadSum]
      rw [hs] at h
      have hnw := hle nw (by simp)
      by_cases hfit : bitPos r + (nw - 1) ≤ 8 * inp.length
      · obtain ⟨r1, h1, h2, h3⟩ := payloadPass_cons hinv hnw hfit nws
        obtain ⟨r2, h4⟩ := ih k h3 (fun n hn => hle n (by simp [hn])) (by omega)
        exact ⟨r2, by rw [h1, h4]; rfl⟩
      · refine ⟨r, ?_⟩
        have := (readerInv_iff.1 hinv).1
        rw [payloadPass, if_neg (by omega), if_neg (by omega),
          takeBitsOf_eq_none.2 (by unfold remBits payloadBits; omega)]

/-- Specifiers of a stream that begins with them. -/
theorem specsOf_specStream {ws : List Byte} {vs : List Word} (hl : ws.length = vs.length)
    (h : ∀ f ∈ ws.zip vs, FieldFits f.1 f.2) (rest : List Bool) :
    specsOf (specStream ws vs ++ rest) ws = vs.map bitWidth := by
  induction ws generalizing vs with
  | nil => cases vs <;> simp_all [specsOf]
  | cons w ws ih =>
    cases vs with
    | nil => simp at hl
    | cons v vs =>
      have hfit := h (w, v) (by simp)
      have hs : specStream (w :: ws) (v :: vs) ++ rest = specBits w v ++ (specStream ws vs ++ rest) := by
        simp [specStream]
      have hlen : (specBits w v).length = w.toNat := natBits_length _ _
      rw [hs, specsOf, List.take_left' hlen, List.drop_left' hlen,
        ih (by simpa using hl) (fun f hf => h f (by simp [hf])), List.map_cons]
      congr 1
      rw [specBits, bitsNum_natBits, Nat.mod_eq_of_lt]
      have := hfit.2
      have := Nat.two_pow_pos w.toNat
      simp only at *
      omega

/-- Values of a stream that begins with their payloads. -/
theorem valuesOf_payStream (vs : List Word) (rest : List Bool) :
    valuesOf (payStream vs ++ rest) (vs.map bitWidth) = vs := by
  induction vs with
  | nil => rfl
  | cons v vs ih =>
    have hs : payStream (v :: vs) ++ rest = payBits v ++ (payStream vs ++ rest) := by simp [payStream]
    have hlen : (payBits v).length = bitWidth v - 1 := natBits_length _ _
    rw [hs, List.map_cons, valuesOf, List.take_left' hlen, List.drop_left' hlen, ih, payloadValue_payBits]

end Sys2Proof.Machine
end

