-- ==== Sys2Proof/Laws/Encoding.lean ====
section
/-! SUPPORT. The fields of a packed command word (R80), and which words select a row of the opcode map (R82, R83). -/

namespace Sys2Proof

variable (op : BitVec 8) (s : BitVec 1) (width : Byte) (value : Word)

/-- Bit `i` of a packed word, field by field from the low end. -/
theorem packWord_getLsbD (i : Nat) :
    (packWord op s width value).getLsbD i =
      if i < 32 then value.getLsbD i
      else if i < 40 then false
      else if i < 48 then width.getLsbD (i - 40)
      else if i < 49 then s.getLsbD (i - 48)
      else if i < 56 then false
      else op.getLsbD (i - 56) := by
  unfold packWord
  simp only [BitVec.getLsbD_append, BitVec.getLsbD_zero]
  rw [show i - 32 - 8 = i - 40 by omega, show i - 40 - 8 = i - 48 by omega, show i - 48 - 1 = i - 49 by omega,
    show i - 49 - 7 = i - 56 by omega]
  by_cases h1 : i < 32
  · rw [if_pos h1, if_pos h1]
  by_cases h2 : i < 40
  · rw [if_neg h1, if_neg h1, if_pos h2, if_pos (by omega)]
  by_cases h3 : i < 48
  · rw [if_neg h1, if_neg h1, if_neg h2, if_pos h3, if_neg (by omega), if_pos (by omega)]
  by_cases h4 : i < 49
  · rw [if_neg h1, if_neg h1, if_neg h2, if_neg h3, if_pos h4, if_neg (by omega), if_neg (by omega), if_pos (by omega)]
  by_cases h5 : i < 56
  · rw [if_neg h1, if_neg h1, if_neg h2, if_neg h3, if_neg h4, if_pos h5, if_neg (by omega), if_neg (by omega),
      if_neg (by omega), if_pos (by omega)]
  · rw [if_neg h1, if_neg h1, if_neg h2, if_neg h3, if_neg h4, if_neg h5, if_neg (by omega), if_neg (by omega),
      if_neg (by omega), if_neg (by omega)]

@[simp] theorem fieldOp_packWord : fieldOp (packWord op s width value) = op := by
  apply BitVec.eq_of_getLsbD_eq
  intro i hi
  simp only [fieldOp, BitVec.getLsbD_extractLsb', packWord_getLsbD]
  simp [hi, show ¬ 56 + i < 32 by omega, show ¬ 56 + i < 40 by omega, show ¬ 56 + i < 48 by omega,
    show ¬ 56 + i < 49 by omega]

@[simp] theorem fieldS_packWord : fieldS (packWord op s width value) = s := by
  apply BitVec.eq_of_getLsbD_eq
  intro i hi
  simp only [fieldS, BitVec.getLsbD_extractLsb', packWord_getLsbD]
  rw [if_neg (by omega), if_neg (by omega), if_neg (by omega), if_pos (by omega), Nat.add_sub_cancel_left]
  simp [hi]

@[simp] theorem fieldWidth_packWord : fieldWidth (packWord op s width value) = width := by
  apply BitVec.eq_of_getLsbD_eq
  intro i hi
  simp only [fieldWidth, BitVec.getLsbD_extractLsb', packWord_getLsbD]
  simp [hi, show ¬ 40 + i < 32 by omega, show 40 + i < 48 by omega]

@[simp] theorem fieldValue_packWord : fieldValue (packWord op s width value) = value := by
  apply BitVec.eq_of_getLsbD_eq
  intro i hi
  simp only [fieldValue, BitVec.getLsbD_extractLsb', packWord_getLsbD]
  simp [hi]

/-- `z1` is 0. -/
@[simp] theorem packWord_z1 : (packWord op s width value).extractLsb' 49 7 = 0#7 := by
  apply BitVec.eq_of_getLsbD_eq
  intro i hi
  simp only [BitVec.getLsbD_extractLsb', packWord_getLsbD]
  simp [hi, show ¬ 49 + i < 32 by omega, show ¬ 49 + i < 40 by omega, show ¬ 49 + i < 48 by omega,
    show 49 + i < 56 by omega]

/-- `z0` is 0. -/
@[simp] theorem packWord_z0 : (packWord op s width value).extractLsb' 32 8 = 0#8 := by
  apply BitVec.eq_of_getLsbD_eq
  intro i hi
  simp only [BitVec.getLsbD_extractLsb', packWord_getLsbD]
  simp [hi, show ¬ 32 + i < 32 by omega, show 32 + i < 40 by omega]

/-- A word whose reserved fields are 0 is the packing of its fields. -/
theorem packWord_fields {c : Command} (h1 : c.extractLsb' 49 7 = 0#7) (h0 : c.extractLsb' 32 8 = 0#8) :
    packWord (fieldOp c) (fieldS c) (fieldWidth c) (fieldValue c) = c := by
  have z1 : ∀ i, i < 7 → c.getLsbD (49 + i) = false := fun i hi => by
    simpa [BitVec.getLsbD_extractLsb', hi] using congrArg (fun x => BitVec.getLsbD x i) h1
  have z0 : ∀ i, i < 8 → c.getLsbD (32 + i) = false := fun i hi => by
    simpa [BitVec.getLsbD_extractLsb', hi] using congrArg (fun x => BitVec.getLsbD x i) h0
  apply BitVec.eq_of_getLsbD_eq
  intro i hi
  rw [packWord_getLsbD]
  split
  · simp [fieldValue, *]
  · split
    · rw [← z0 (i - 32) (by omega)]; congr 1; omega
    · split
      · simp [fieldWidth, show i - 40 < 8 by omega, show 40 + (i - 40) = i by omega]
      · split
        · have : i = 48 := by omega
          subst this
          simp [fieldS]
        · split
          · rw [← z1 (i - 49) (by omega)]; congr 1; omega
          · simp [fieldOp, show i - 56 < 8 by omega, show 56 + (i - 56) = i by omega]

@[simp] theorem selOfBit_bitOfSel (sel : WSel) : selOfBit (bitOfSel sel) = sel := by cases sel <;> rfl

@[simp] theorem bitOfSel_selOfBit (b : BitVec 1) : bitOfSel (selOfBit b) = b := by
  revert b; decide

/-- The opcodes of R82 are pairwise different, so a row is found by its own opcode. -/
@[simp] theorem opOfByte_opcode (o : Op) : opOfByte (opcode o) = some o := by cases o <;> rfl

/-- The row found by an opcode has that opcode. -/
theorem opcode_of_opOfByte {b : BitVec 8} {o : Op} (h : opOfByte b = some o) : opcode o = b := by
  simpa using List.find?_some h

/-- The two packings agree field by field. -/
theorem packWord_inj {op op' : BitVec 8} {s s' : BitVec 1} {width width' : Byte} {value value' : Word} :
    packWord op s width value = packWord op' s' width' value' ↔
      op = op' ∧ s = s' ∧ width = width' ∧ value = value' := by
  constructor
  · intro h
    have h1 := congrArg fieldOp h
    have h2 := congrArg fieldS h
    have h3 := congrArg fieldWidth h
    have h4 := congrArg fieldValue h
    simp only [fieldOp_packWord, fieldS_packWord, fieldWidth_packWord, fieldValue_packWord] at h1 h2 h3 h4
    exact ⟨h1, h2, h3, h4⟩
  · rintro ⟨rfl, rfl, rfl, rfl⟩
    rfl

/-- A mask that keeps the reserved fields whole acts field by field. -/
theorem packWord_and_mask (op op' : BitVec 8) (s s' : BitVec 1) (width width' : Byte) (value value' : Word) :
    packWord op s width value &&& (packWord op' s' width' value' ||| 0x00FE00FF00000000#64) =
      packWord (op &&& op') (s &&& s') (width &&& width') (value &&& value') := by
  apply BitVec.eq_of_getLsbD_eq
  intro i hi
  rw [BitVec.getLsbD_and, BitVec.getLsbD_or, packWord_getLsbD, packWord_getLsbD, packWord_getLsbD]
  split
  · have : (0x00FE00FF00000000#64).getLsbD i = false := by interval_cases i <;> rfl
    simp [this, BitVec.getLsbD_and]
  split
  · simp
  split
  · have : (0x00FE00FF00000000#64).getLsbD i = false := by interval_cases i <;> rfl
    simp [this]
  split
  · have : (0x00FE00FF00000000#64).getLsbD i = false := by interval_cases i; rfl
    simp [this]
  split
  · simp
  · have : (0x00FE00FF00000000#64).getLsbD i = false := by interval_cases i <;> rfl
    simp [this]

/-- A packed word selects a row of R82 exactly when it has the row's opcode and a zero in each field the row does not use. -/
theorem packWord_selects (o : Op) :
    packWord op s width value &&& rowMask o = rowMatch o ↔
      op = opcode o ∧ (o ∈ [Op.bitw, .rinit, .take, .takei, .encode, .decode] → s = 0#1) ∧
      (usesWidth o = false → width = 0#8) ∧ (o ∉ [Op.bitw, .append, .appendd] → value = 0#32) := by
  have hmask : rowMask o =
      packWord 0xFF#8 (if o ∈ [Op.bitw, .rinit, .take, .takei, .encode, .decode] then 1#1 else 0#1)
        (if usesWidth o then 0#8 else 0xFF#8) (if o ∈ [Op.bitw, .append, .appendd] then 0#32 else 0xFFFFFFFF#32) |||
      0x00FE00FF00000000#64 := by cases o <;> decide
  have hmatch : rowMatch o = packWord (opcode o) 0#1 0#8 0#32 := by cases o <;> decide
  rw [hmask, packWord_and_mask, hmatch, packWord_inj]
  have e8 : ∀ a : BitVec 8, a &&& 0xFF#8 = a := fun a => BitVec.and_allOnes (x := a)
  have e32 : ∀ a : Word, a &&& 0xFFFFFFFF#32 = a := fun a => BitVec.and_allOnes (x := a)
  have e1 : ∀ a : BitVec 1, a &&& 1#1 = a := fun a => BitVec.and_allOnes (x := a)
  cases o <;> simp [usesWidth, e8, e32, e1]

/-- A word that selects a row has the row's opcode and zeros in `z1` and `z0`. -/
theorem selects_reserved {c : Command} {o : Op} (h : c &&& rowMask o = rowMatch o) :
    c.extractLsb' 49 7 = 0#7 ∧ c.extractLsb' 32 8 = 0#8 ∧ fieldOp c = opcode o := by
  have hb : ∀ i, (c.getLsbD i && (rowMask o).getLsbD i) = (rowMatch o).getLsbD i := fun i => by
    rw [← BitVec.getLsbD_and, h]
  refine ⟨?_, ?_, ?_⟩
  · apply BitVec.eq_of_getLsbD_eq
    intro i hi
    have := hb (49 + i)
    rw [BitVec.getLsbD_extractLsb']
    interval_cases i <;> cases o <;> simp [rowMask, rowMatch] at this ⊢ <;> exact this
  · apply BitVec.eq_of_getLsbD_eq
    intro i hi
    have := hb (32 + i)
    rw [BitVec.getLsbD_extractLsb']
    interval_cases i <;> cases o <;> simp [rowMask, rowMatch] at this ⊢ <;> exact this
  · apply BitVec.eq_of_getLsbD_eq
    intro i hi
    have := hb (56 + i)
    rw [fieldOp, BitVec.getLsbD_extractLsb']
    interval_cases i <;> cases o <;> simp [rowMask, rowMatch, opcode] at this ⊢ <;> exact this

/-- What an accepted word decodes to, and that each test of R83 passed. -/
theorem decode_ok_cases {c : Command} {i : Instr} (h : decode c = .ok i) :
    ∃ o, c &&& rowMask o = rowMatch o ∧ (usesWidth o = true → (fieldWidth c).toNat ≤ 32) ∧ i = assemble o c := by
  unfold decode at h
  split at h
  · cases h
  · rename_i o ho
    split at h
    · cases h
    · split at h
      · cases h
      · rename_i h1 h2
        cases h
        exact ⟨o, by simpa using h1, by simpa using h2, rfl⟩

end Sys2Proof
end

