-- ==== Sys2Proof/Laws/Exec.lean ====
section
/-! SUPPORT. One inversion lemma per meaning: the cases in which it answers a next state, and that state. The forms without
`With` follow at the default parameters by `rfl`. -/

namespace Sys2Proof.Machine

open Sys2Proof

theorem legalWidth_iff {width : Byte} : legalWidth width = true ↔ width.toNat ≤ 32 := by
  simp [legalWidth]

theorem legalWidth_eq_false {width : Byte} : legalWidth width = false ↔ ¬ width.toNat ≤ 32 := by
  simp [legalWidth]

theorem anyWide_iff {fw : List Byte} : anyWide fw = true ↔ ∃ w ∈ fw, 33 ≤ w.toNat := by
  simp only [anyWide, List.any_eq_true, decide_eq_true_eq]
  rfl

theorem anyWide_eq_false {fw : List Byte} : anyWide fw = false ↔ NoWideField fw := by
  simp [anyWide, NoWideField]

/-! ## The writer's operations -/

/-- The two appending operations move `k` bits of the value onto the named context. -/
theorem storeWriter_withinCap_next {sel : WSel} {s t : State} {cap : Option Nat} {w : BitWriter}
    (h : storeWriter sel s (withinCap cap w) = .next t) :
    t = complete 0#4 0#32 (setWriter s sel w) ∧ ∀ c ∈ cap, w.buf.length ≤ c := by
  cases hw : withinCap cap w with
  | ok w' =>
    rw [hw] at h
    cases h
    obtain ⟨rfl, h2⟩ := withinCap_ok hw
    exact ⟨rfl, h2⟩
  | error stop =>
    rcases withinCap_same cap w with h' | h'
    · rw [hw] at h'; cases h'
    · rw [h'] at h; cases h

theorem execAppendWith_next {p : Params} {sel : WSel} {value : Word} {width : Byte} {s t : State}
    (h : execAppendWith p sel value width s = .next t) :
    (¬ width.toNat ≤ 32 ∧ t = complete 15#4 0#32 s) ∨
    (width.toNat ≤ 32 ∧ (writerAt s sel).fin = false ∧
      t = complete 0#4 0#32 (setWriter s sel (appendBitsOf (writerAt s sel) value width.toNat)) ∧
      ∀ c ∈ p.capBuf, (appendBitsOf (writerAt s sel) value width.toNat).buf.length ≤ c) := by
  unfold execAppendWith at h
  split at h
  · rename_i hw
    cases h
    exact .inl ⟨legalWidth_eq_false.1 hw, rfl⟩
  · rename_i hw
    split at h
    · cases h
    · rename_i hf
      obtain ⟨h1, h2⟩ := storeWriter_withinCap_next h
      exact .inr ⟨by simpa [legalWidth_eq_false] using hw, by simpa using hf, h1, h2⟩

theorem execAppenddWith_next {p : Params} {sel : WSel} {value : Word} {width : Byte} {s t : State}
    (h : execAppenddWith p sel value width s = .next t) :
    (¬ width.toNat ≤ 32 ∧ t = complete 15#4 0#32 s) ∨
    (width.toNat ≤ 32 ∧ (writerAt s sel).fin = false ∧
      t = complete 0#4 0#32 (setWriter s sel (appendBitsOf (writerAt s sel) value (width.toNat - 1))) ∧
      ∀ c ∈ p.capBuf, (appendBitsOf (writerAt s sel) value (width.toNat - 1)).buf.length ≤ c) := by
  unfold execAppenddWith at h
  split at h
  · rename_i hw
    cases h
    exact .inl ⟨legalWidth_eq_false.1 hw, rfl⟩
  · rename_i hw
    split at h
    · cases h
    · rename_i hf
      obtain ⟨h1, h2⟩ := storeWriter_withinCap_next h
      exact .inr ⟨by simpa [legalWidth_eq_false] using hw, by simpa using hf, h1, h2⟩

theorem execFinishWith_next {p : Params} {sel : WSel} {s t : State} (h : execFinishWith p sel s = .next t) :
    (writerAt s sel).fin = false ∧ t = complete 0#4 0#32 (setWriter s sel (finishOf (writerAt s sel))) ∧
      ∀ c ∈ p.capBuf, (finishOf (writerAt s sel)).buf.length ≤ c := by
  unfold execFinishWith at h
  split at h
  · cases h
  · rename_i hf
    obtain ⟨h1, h2⟩ := storeWriter_withinCap_next h
    exact ⟨by simpa using hf, h1, h2⟩

/-- An append on an open writer under unbounded capacities. -/
theorem execAppend_open {sel : WSel} {value : Word} {width : Byte} {s : State} (hw : width.toNat ≤ 32)
    (hf : (writerAt s sel).fin = false) :
    execAppend sel value width s =
      .next (complete 0#4 0#32 (setWriter s sel (appendBitsOf (writerAt s sel) value width.toNat))) := by
  unfold execAppend execAppendWith
  rw [legalWidth_iff.2 hw, hf]
  rfl

theorem execAppendd_open {sel : WSel} {value : Word} {width : Byte} {s : State} (hw : width.toNat ≤ 32)
    (hf : (writerAt s sel).fin = false) :
    execAppendd sel value width s =
      .next (complete 0#4 0#32 (setWriter s sel (appendBitsOf (writerAt s sel) value (width.toNat - 1)))) := by
  unfold execAppendd execAppenddWith
  rw [legalWidth_iff.2 hw, hf]
  rfl

theorem execFinish_open {sel : WSel} {s : State} (hf : (writerAt s sel).fin = false) :
    execFinish sel s = .next (complete 0#4 0#32 (setWriter s sel (finishOf (writerAt s sel)))) := by
  unfold execFinish execFinishWith
  rw [hf]
  rfl

/-! ## The reader's operations -/

theorem storeRead_cases (s : State) (f : Nat → Nat) (o : Option (Nat × BitReader)) :
    (o = none ∧ storeRead s f o = .next (complete 4#4 0#32 { s with reader := clearValid s.reader })) ∨
    ∃ v r, o = some (v, r) ∧ storeRead s f o = .next (complete 0#4 (BitVec.ofNat 32 (f v)) { s with reader := r }) := by
  cases o with
  | none => exact .inl ⟨rfl, rfl⟩
  | some p => exact .inr ⟨p.1, p.2, rfl, rfl⟩

theorem execTake_next {width : Byte} {s t : State} (h : execTake width s = .next t) :
    (¬ width.toNat ≤ 32 ∧ t = complete 15#4 0#32 s) ∨
    (width.toNat ≤ 32 ∧ s.reader.valid = true ∧
      ((remBits s.inp s.reader < width.toNat ∧
          t = complete 4#4 0#32 { s with reader := clearValid s.reader }) ∨
        ∃ v r, takeBitsOf s.inp s.reader width.toNat = some (v, r) ∧
          t = complete 0#4 (BitVec.ofNat 32 v) { s with reader := r })) := by
  unfold execTake at h
  split at h
  · rename_i hw
    cases h
    exact .inl ⟨legalWidth_eq_false.1 hw, rfl⟩
  · rename_i hw
    split at h
    · cases h
    · rename_i hv
      refine .inr ⟨by simpa [legalWidth_eq_false] using hw, by simpa using hv, ?_⟩
      rcases storeRead_cases s id (takeBitsOf s.inp s.reader width.toNat) with ⟨h1, h2⟩ | ⟨v, r, h1, h2⟩
      · rw [h2] at h; cases h
        exact .inl ⟨takeBitsOf_eq_none.1 h1, rfl⟩
      · rw [h2] at h; cases h
        exact .inr ⟨v, r, h1, rfl⟩

theorem execTakei_next {width : Byte} {s t : State} (h : execTakei width s = .next t) :
    (¬ width.toNat ≤ 32 ∧ t = complete 15#4 0#32 s) ∨
    (width.toNat ≤ 32 ∧ s.reader.valid = true ∧
      ((width.toNat = 0 ∧ t = complete 0#4 0#32 s) ∨
        (width.toNat ≠ 0 ∧ remBits s.inp s.reader < width.toNat - 1 ∧
          t = complete 4#4 0#32 { s with reader := clearValid s.reader }) ∨
        (width.toNat ≠ 0 ∧ ∃ v r, takeBitsOf s.inp s.reader (width.toNat - 1) = some (v, r) ∧
          t = complete 0#4 (BitVec.ofNat 32 (2 ^ (width.toNat - 1) + v)) { s with reader := r }))) := by
  unfold execTakei at h
  split at h
  · rename_i hw
    cases h
    exact .inl ⟨legalWidth_eq_false.1 hw, rfl⟩
  · rename_i hw
    split at h
    · cases h
    · rename_i hv
      refine .inr ⟨by simpa [legalWidth_eq_false] using hw, by simpa using hv, ?_⟩
      split at h
      · cases h
        exact .inl ⟨‹_›, rfl⟩
      · rename_i h0
        rcases storeRead_cases s (fun v => restoreLeadingOne v width.toNat)
          (takeBitsOf s.inp s.reader (payloadBits width.toNat)) with ⟨h1, h2⟩ | ⟨v, r, h1, h2⟩
        · rw [h2] at h; cases h
          exact .inr (.inl ⟨h0, takeBitsOf_eq_none.1 h1, rfl⟩)
        · rw [h2] at h; cases h
          refine .inr (.inr ⟨h0, v, r, h1, ?_⟩)
          simp only [restoreLeadingOne_eq (takeBitsOf_lt h1)]

/-- A read of a valid reader, whatever it meets. -/
theorem execTake_valid {width : Byte} {s : State} (hw : width.toNat ≤ 32) (hv : s.reader.valid = true) :
    execTake width s = storeRead s id (takeBitsOf s.inp s.reader width.toNat) := by
  unfold execTake
  rw [legalWidth_iff.2 hw, hv]
  rfl

theorem execTakei_valid {width : Byte} {s : State} (hw : width.toNat ≤ 32) (hv : s.reader.valid = true)
    (h0 : width.toNat ≠ 0) :
    execTakei width s = storeRead s (fun v => restoreLeadingOne v width.toNat)
      (takeBitsOf s.inp s.reader (width.toNat - 1)) := by
  unfold execTakei
  rw [legalWidth_iff.2 hw, hv, if_neg h0]
  rfl

/-! ## ENCODE and DECODE -/

theorem execEncodeWith_next {p : Params} {s t : State} (h : execEncodeWith p s = .next t) :
    (anyWide s.fw = true ∧ ∃ c, p.wideField = .reject c ∧ t = failEncode c s) ∨
    (anyWide s.fw = false ∧
      ((∃ w, encodeBody p.capBuf s.fw s.val = .ok w ∧
          t = complete 0#4 0#32 { s with w0 := w, w1 := initWriter }) ∨
        ∃ c, encodeBody p.capBuf s.fw s.val = .error (.raise c) ∧ t = failEncode c s)) := by
  unfold execEncodeWith at h
  split at h
  · rename_i hw
    refine .inl ⟨hw, ?_⟩
    cases hp : p.wideField with
    | refuse => rw [hp] at h; cases h
    | reject c => rw [hp] at h; cases h; exact ⟨c, rfl, rfl⟩
  · rename_i hw
    refine .inr ⟨by simpa using hw, ?_⟩
    rcases hb : encodeBody p.capBuf s.fw s.val with (c | r) | w
    · rw [hb] at h; cases h; exact .inr ⟨c, rfl, rfl⟩
    · rw [hb] at h; cases h
    · rw [hb] at h; cases h; exact .inl ⟨w, rfl, rfl⟩

theorem policyDecode_next {policy : Policy} {reason : Refusal} {r : BitReader} {s t : State}
    (h : policyDecode policy reason r s = .next t) : ∃ c, policy = .reject c ∧ t = failDecode c r s := by
  cases policy with
  | refuse => cases h
  | reject c => cases h; exact ⟨c, rfl, rfl⟩

theorem execDecodeWith_next {p : Params} {s t : State} (h : execDecodeWith p s = .next t) :
    (anyWide s.fw = true ∧ ∃ c, p.wideField = .reject c ∧ t = failDecode c s.reader s) ∨
    (anyWide s.fw = false ∧
      ((∃ xs r, decodePasses s.inp s.fw = .done xs r ∧ (∀ c ∈ p.capN, xs.length ≤ c) ∧
          t = complete 0#4 0#32 { s with val := xs, reader := clearValid r }) ∨
        (∃ r, decodePasses s.inp s.fw = .outOfData r ∧ t = failDecode 4#4 r s) ∨
        ∃ r c, decodePasses s.inp s.fw = .overlong r ∧ p.overlong = .reject c ∧ t = failDecode c r s)) := by
  unfold execDecodeWith at h
  split at h
  · rename_i hw
    exact .inl ⟨hw, policyDecode_next h⟩
  · rename_i hw
    refine .inr ⟨by simpa using hw, ?_⟩
    rcases hb : decodePasses s.inp s.fw with ⟨xs, r⟩ | r | r
    · rw [hb] at h
      unfold storeDecoded at h
      simp only at h
      split at h
      · cases h
      · rename_i hx
        cases h
        exact .inl ⟨xs, r, rfl, exceeds_eq_false.1 (Bool.eq_false_iff.2 hx), rfl⟩
    · rw [hb] at h; cases h; exact .inr (.inl ⟨r, rfl, rfl⟩)
    · rw [hb] at h
      obtain ⟨c, h1, h2⟩ := policyDecode_next h
      exact .inr (.inr ⟨r, c, rfl, h1, h2⟩)

end Sys2Proof.Machine
end

