-- ==== Sys2Proof/Laws/PerInstr.lean ====
section
/-! SUPPORT. Statements made per instruction: where the word of each operation puts its row's opcode, and that its reserved
fields are 0 (R80, R82). -/

namespace Sys2Proof.Laws.RowFields

open Sys2Proof

/-- The word of the operation has the opcode of its row in bits 63:56 and zeros in `z1` and `z0`. -/
def Statement (i : Instr) : Prop :=
  fieldOp (encode i) = opcode (opOf i) ∧ (encode i).extractLsb' 49 7 = 0#7 ∧ (encode i).extractLsb' 32 8 = 0#8

theorem bitw (value : Word) : Statement (.bitw value) := by simp [Statement, Sys2Proof.encode, opOf, opcode]

theorem winit (sel : WSel) : Statement (.winit sel) := by simp [Statement, Sys2Proof.encode, opOf, opcode]

theorem append (sel : WSel) (value : Word) (width : Byte) : Statement (.append sel value width) := by
  simp [Statement, Sys2Proof.encode, opOf, opcode]

theorem appendd (sel : WSel) (value : Word) (width : Byte) : Statement (.appendd sel value width) := by
  simp [Statement, Sys2Proof.encode, opOf, opcode]

theorem finish (sel : WSel) : Statement (.finish sel) := by simp [Statement, Sys2Proof.encode, opOf, opcode]

theorem rinit : Statement .rinit := by simp [Statement, Sys2Proof.encode, opOf, opcode]

theorem take (width : Byte) : Statement (.take width) := by simp [Statement, Sys2Proof.encode, opOf, opcode]

theorem takei (width : Byte) : Statement (.takei width) := by simp [Statement, Sys2Proof.encode, opOf, opcode]

theorem encode : Statement .encode := by simp [Statement, Sys2Proof.encode, opOf, opcode]

theorem decode : Statement .decode := by simp [Statement, Sys2Proof.encode, opOf, opcode]

end Sys2Proof.Laws.RowFields
end

