-- ==== Sys2Proof/Laws/Step.lean ====
section
/-! SUPPORT. What one step can do, said once: the host action it performs and the state it leaves (R242). -/

namespace Sys2Proof.Machine

open Sys2Proof

/-- A command word that answers a next state: its operation did, or it was illegal. -/
theorem runCommand_next {run : Instr → State → Host.Outcome State Fault Refusal} {c : Command} {s t : State}
    (h : runCommand run c s = .next t) :
    (∃ i, decode c = .ok i ∧ run i s = .next t) ∨
      ((∃ e, decode c = .error e) ∧ t = complete 15#4 0#32 s) := by
  unfold runCommand at h
  split at h
  · exact .inl ⟨_, ‹_›, h⟩
  · rename_i e he
    cases h
    exact .inr ⟨⟨e, he⟩, rfl⟩

theorem hostSetFw_next {p : Params} {xs : List Byte} {s t : State} (h : hostSetFw p xs s = .next t) :
    (∀ c ∈ p.capN, xs.length ≤ c) ∧ t = { s with fw := xs } := by
  unfold hostSetFw at h
  split at h
  · cases h
  · rename_i hx; cases h; exact ⟨exceeds_eq_false.1 (Bool.eq_false_iff.2 hx), rfl⟩

theorem hostSetVal_next {p : Params} {xs : List Word} {s t : State} (h : hostSetVal p xs s = .next t) :
    (∀ c ∈ p.capN, xs.length ≤ c) ∧ t = { s with val := xs } := by
  unfold hostSetVal at h
  split at h
  · cases h
  · rename_i hx; cases h; exact ⟨exceeds_eq_false.1 (Bool.eq_false_iff.2 hx), rfl⟩

theorem hostSetIn_next {p : Params} {xs : List Byte} {s t : State} (h : hostSetIn p xs s = .next t) :
    (∀ c ∈ p.capBuf, xs.length ≤ c) ∧ t = { s with inp := xs, reader := clearValid s.reader } := by
  unfold hostSetIn at h
  split at h
  · cases h
  · rename_i hx; cases h; exact ⟨exceeds_eq_false.1 (Bool.eq_false_iff.2 hx), rfl⟩

/-- Everything a step that answers a next state can have done. -/
theorem engineStep_next {p : Params} {run : Instr → State → Host.Outcome State Fault Refusal} {s t : State}
    (h : engineStep p run s = .next t) :
    ∃ a rest, s.pending = a :: rest ∧
      ((∃ c i, a = .command c ∧ decode c = .ok i ∧ run i { s with pending := rest } = .next t) ∨
        (∃ c e, a = .command c ∧ decode c = .error e ∧ t = complete 15#4 0#32 { s with pending := rest }) ∨
        (∃ xs, a = .setFw xs ∧ (∀ c ∈ p.capN, xs.length ≤ c) ∧ t = { s with pending := rest, fw := xs }) ∨
        (∃ xs, a = .setVal xs ∧ (∀ c ∈ p.capN, xs.length ≤ c) ∧ t = { s with pending := rest, val := xs }) ∨
        (∃ xs, (a = .setIn xs ∨ ∃ sel, a = .copyIn sel ∧ xs = (writerAt s sel).buf) ∧
          (∀ c ∈ p.capBuf, xs.length ≤ c) ∧
          t = { s with pending := rest, inp := xs, reader := clearValid s.reader }) ∨
        (a = .reset ∧ t = { State.reset with pending := rest })) := by
  unfold engineStep at h
  split at h
  · cases h
  · rename_i a rest hp
    refine ⟨a, rest, hp, ?_⟩
    cases a with
    | command c =>
      rcases runCommand_next h with ⟨i, h1, h2⟩ | ⟨⟨e, h1⟩, h2⟩
      · exact .inl ⟨c, i, rfl, h1, h2⟩
      · exact .inr (.inl ⟨c, e, rfl, h1, h2⟩)
    | setFw xs =>
      obtain ⟨h1, h2⟩ := hostSetFw_next h
      exact .inr (.inr (.inl ⟨xs, rfl, h1, h2⟩))
    | setVal xs =>
      obtain ⟨h1, h2⟩ := hostSetVal_next h
      exact .inr (.inr (.inr (.inl ⟨xs, rfl, h1, h2⟩)))
    | setIn xs =>
      obtain ⟨h1, h2⟩ := hostSetIn_next h
      exact .inr (.inr (.inr (.inr (.inl ⟨xs, .inl rfl, h1, h2⟩))))
    | copyIn sel =>
      obtain ⟨h1, h2⟩ := hostSetIn_next h
      refine .inr (.inr (.inr (.inr (.inl ⟨_, .inr ⟨sel, rfl, rfl⟩, ?_, ?_⟩))))
      · cases sel <;> exact h1
      · cases sel <;> exact h2
    | reset =>
      cases h
      exact .inr (.inr (.inr (.inr (.inr ⟨rfl, rfl⟩))))

/-! ## Capacities (R59) -/

/-- The parameters without capacities. -/
def unbounded (p : Params) : Params := { p with capBuf := none, capN := none }

/-- The same outcome, or the refusal of R59. -/
def SameOrRefused (bounded free : Host.Outcome State Fault Refusal) : Prop :=
  bounded = free ∨ bounded = .refused .capacityExceeded

theorem storeWriter_same (sel : WSel) (s : State) (cap : Option Nat) (w : BitWriter) :
    SameOrRefused (storeWriter sel s (withinCap cap w)) (storeWriter sel s (withinCap none w)) := by
  rcases withinCap_same cap w with h | h <;> rw [h]
  · exact .inl rfl
  · exact .inr rfl

/-- A capacity changes an operation's outcome into a refusal or not at all. -/
theorem execWith_same (p : Params) (i : Instr) (s : State) :
    SameOrRefused (execWith p i s) (execWith (unbounded p) i s) := by
  cases i with
  | bitw value => exact .inl rfl
  | winit sel => exact .inl rfl
  | append sel value width =>
    simp only [execWith, execAppendWith]
    split
    · exact .inl rfl
    split
    · exact .inl rfl
    · exact storeWriter_same ..
  | appendd sel value width =>
    simp only [execWith, execAppenddWith]
    split
    · exact .inl rfl
    split
    · exact .inl rfl
    · exact storeWriter_same ..
  | finish sel =>
    simp only [execWith, execFinishWith]
    split
    · exact .inl rfl
    · exact storeWriter_same ..
  | rinit => exact .inl rfl
  | take width => exact .inl rfl
  | takei width => exact .inl rfl
  | encode =>
    simp only [execWith, execEncodeWith]
    split
    · exact .inl rfl
    · rcases encodeBody_same p.capBuf s.fw s.val with h | h <;> rw [h]
      · exact .inl rfl
      · exact .inr rfl
  | decode =>
    simp only [execWith, execDecodeWith]
    split
    · exact .inl rfl
    · cases decodePasses s.inp s.fw with
      | done xs r =>
        simp only [storeDecoded]
        split
        · exact .inr rfl
        · exact .inl rfl
      | outOfData r => exact .inl rfl
      | overlong r => exact .inl rfl

end Sys2Proof.Machine
end

