-- ==== Sys2Proof/Tests/Slice0.lean ====
section
/-! SUPPORT. The model's own tests. Expected results come from spec/95_test_vectors.md, whose section is named beside each.
After them, for each obligation with hypotheses, a witness that meets all of them together. -/

namespace Sys2Proof.Tests

open Sys2Proof Sys2Proof.Machine

/-! ## Helpers -/

/-- The outcome is a next state of which `p` holds. -/
def nextIs (o : Host.Outcome State Fault Refusal) (p : State → Bool) : Bool :=
  match o with
  | .next t => p t
  | .fault _ => false
  | .refused _ => false

/-- The outcome is the refusal `r`. -/
def refusedIs (o : Host.Outcome State Fault Refusal) (r : Refusal) : Bool :=
  match o with
  | .next _ => false
  | .fault _ => false
  | .refused q => decide (q = r)

theorem nextIs_exists {o : Host.Outcome State Fault Refusal} {p : State → Bool} (h : nextIs o p = true) :
    ∃ t, o = .next t ∧ p t = true := by
  cases o with
  | next t => exact ⟨t, rfl, h⟩
  | fault f => cases h
  | refused r => cases h

theorem nextIs_status {o : Host.Outcome State Fault Refusal} {c : BitVec 4}
    (h : nextIs o (fun t => decide (t.cr.status = c)) = true) : ∃ t, o = .next t ∧ t.cr.status = c := by
  obtain ⟨t, h1, h2⟩ := nextIs_exists h
  exact ⟨t, h1, of_decide_eq_true h2⟩

/-- Reset, with `W[0]` as given. -/
def writing (buf : List Byte) (pend : Byte) (off : Fin 8) (fin : Bool) : State :=
  { State.reset with w0 := { buf := buf, pend := pend, off := off, fin := fin } }

/-- Reset, with `IN` and `R` as given. -/
def reading (inp : List Byte) (pos : Nat) (off : Fin 8) (cur : Byte) (valid : Bool) : State :=
  { State.reset with inp := inp, reader := { pos := pos, off := off, cur := cur, valid := valid } }

/-- Reset, with `FW`, `VAL` and `IN` as given. -/
def coding (fw : List Byte) (val : List Word) (inp : List Byte) : State :=
  { State.reset with fw := fw, val := val, inp := inp }

/-- Reset, with one host action pending. -/
def about (a : HostAction) : State := { State.reset with pending := [a] }

def okWith (value : Word) : Completion := { status := 0#4, value := value }

/-! ## Well-formedness: an ill-formed term for each check -/

theorem test_wellFormed_append :
    (Instr.append .w0 0#32 32#8).wellFormed = true ∧ (Instr.append .w0 0#32 33#8).wellFormed = false := by decide

theorem test_wellFormed_appendd :
    (Instr.appendd .w1 0#32 32#8).wellFormed = true ∧ (Instr.appendd .w1 0#32 255#8).wellFormed = false := by decide

theorem test_wellFormed_take :
    (Instr.take 32#8).wellFormed = true ∧ (Instr.take 255#8).wellFormed = false := by decide

theorem test_wellFormed_takei :
    (Instr.takei 32#8).wellFormed = true ∧ (Instr.takei 33#8).wellFormed = false := by decide

/-! ## Decoding: words written out from R80, R81 and R82, bit by bit for each family -/

/-- Section 2.1, `op = 0x01`, `value = 12345`. -/
theorem test_decode_bitw :
    decode 0b0000000100000000000000000000000000000000000000000011000000111001#64 = .ok (.bitw 12345#32) := by decide

/-- Section 2.2, `op = 0x12`, `s = 1` at bit 48, `width = 14` at 47:40, `value = 12345`. -/
theorem test_decode_appendd :
    decode 0b0001001000000001000011100000000000000000000000000011000000111001#64 =
      .ok (.appendd .w1 12345#32 14#8) := by decide

/-- Section 2.3, `op = 0x22`, `width = 32`. -/
theorem test_decode_takei :
    decode 0b0010001000000000001000000000000000000000000000000000000000000000#64 = .ok (.takei 32#8) := by decide

/-- Sections 2.4 and 2.5, `op = 0x30` and `op = 0x31`. -/
theorem test_decode_coder :
    decode 0b0011000000000000000000000000000000000000000000000000000000000000#64 = .ok .encode ∧
    decode 0b0011000100000000000000000000000000000000000000000000000000000000#64 = .ok .decode := by decide

/-- Sections 2.2 and 2.3, the words of the other rows. -/
theorem test_decode_writer_reader :
    decode 0x1001000000000000#64 = .ok (.winit .w1) ∧
    decode 0x11002000DEADBEEF#64 = .ok (.append .w0 0xDEADBEEF#32 32#8) ∧
    decode 0x1301000000000000#64 = .ok (.finish .w1) ∧
    decode 0x2000000000000000#64 = .ok .rinit ∧
    decode 0x2100080000000000#64 = .ok (.take 8#8) := by decide

/-- Section 2.6, the sixteen illegal words. -/
theorem test_decode_illegal :
    ([0x0000000000000000#64, 0x0200000000000000#64, 0xFFFFFFFFFFFFFFFF#64, 0x1100210000000000#64,
      0x2100FF0000000000#64, 0x0101000000000005#64, 0x0100010000000005#64, 0x1000000000000001#64,
      0x1300080000000000#64, 0x2101040000000000#64, 0x2100040000000001#64, 0x2000000000000001#64,
      0x3001000000000000#64, 0x3100000100000000#64, 0x1102030000000005#64, 0x1100030100000005#64].all
      fun c => (decode c).toOption.isNone) = true := by decide

/-- The legal neighbours of section 2.6. -/
theorem test_decode_legal_neighbours :
    decode 0x1100200000000000#64 = .ok (.append .w0 0#32 32#8) ∧
    decode 0x1101000000000000#64 = .ok (.append .w1 0#32 0#8) ∧
    decode 0x2200200000000000#64 = .ok (.takei 32#8) := by decide

theorem test_decodeTableWord :
    decodeTableWord 64 0x12010E0000003039 = some (.appendd .w1 12345#32 14#8) ∧
    decodeTableWord 64 0x0200000000000000 = none := by decide

/-- R87: the line `APPENDD 1, 12345, 14`. -/
theorem test_encode_appendd : encode (.appendd .w1 12345#32 14#8) = 0x12010E0000003039#64 := by decide

/-! ## One step of each operation -/

/-- Section 2.1. -/
theorem test_bitw : nextIs (exec (.bitw 12345#32) State.reset) (fun t => decide (t.cr = okWith 14#32)) = true := by
  decide

/-- Section 2.1, S9 and S12. -/
theorem test_bitw_ends : bitWidth 0#32 = 0 ∧ bitWidth 0xFFFFFFFF#32 = 32 := by decide

/-- Section 2.2, `WINIT` on a finished writer. -/
theorem test_winit :
    nextIs (exec (.winit .w0) (writing [0xBF#8, 0xF5#8] 0x00#8 0 true))
      (fun t => decide (t.w0 = { buf := [], pend := 0x00#8, off := 0, fin := false })) = true := by decide

/-- Section 2.2, W-a step 2. -/
theorem test_append_crosses_byte :
    nextIs (exec (.append .w0 0x1FF#32 9#8) (writing [] 0xA0#8 3 false))
      (fun t => decide (t.w0 = { buf := [0xBF#8], pend := 0xF0#8, off := 4, fin := false })) = true := by decide

/-- Section 2.2, W-a step 4: the bits above `width` are ignored, and a filled byte is pushed. -/
theorem test_append_fills_byte :
    nextIs (exec (.append .w0 0xFFFFFFF5#32 4#8) (writing [0xBF#8] 0xF0#8 4 false))
      (fun t => decide (t.w0 = { buf := [0xBF#8, 0xF5#8], pend := 0x00#8, off := 0, fin := false })) = true := by decide

/-- Section 2.2, W-e step 4. -/
theorem test_appendd :
    nextIs (exec (.appendd .w0 5#32 3#8) (writing [] 0x80#8 1 false))
      (fun t => decide (t.w0 = { buf := [], pend := 0xA0#8, off := 3, fin := false })) = true := by decide

/-- Section 2.2, W-e steps 1 and 2, and corner case c of R122. -/
theorem test_appendd_corners :
    nextIs (exec (.appendd .w0 0#32 0#8) State.reset) (fun t => decide (t.w0 = State.reset.w0)) = true ∧
    nextIs (exec (.appendd .w0 1#32 1#8) State.reset) (fun t => decide (t.w0 = State.reset.w0)) = true ∧
    nextIs (exec (.appendd .w0 5#32 4#8) State.reset)
      (fun t => decide (t.w0 = { buf := [], pend := 0xA0#8, off := 3, fin := false })) = true := by decide

/-- Section 2.2, W-e step 6. -/
theorem test_finish_pads :
    nextIs (exec (.finish .w0) (writing [0xBF#8] 0xC0#8 2 false))
      (fun t => decide (t.w0 = { buf := [0xBF#8, 0xC0#8], pend := 0x00#8, off := 0, fin := true })) = true := by decide

/-- Section 2.2, W-a step 5 and W-d: nothing is pushed at `off = 0`. -/
theorem test_finish_aligned :
    nextIs (exec (.finish .w0) (writing [0xBF#8, 0xF5#8] 0x00#8 0 false))
      (fun t => decide (t.w0 = { buf := [0xBF#8, 0xF5#8], pend := 0x00#8, off := 0, fin := true })) = true ∧
    nextIs (exec (.finish .w0) State.reset)
      (fun t => decide (t.w0 = { buf := [], pend := 0x00#8, off := 0, fin := true })) = true := by decide

/-- Section 2.3. -/
theorem test_rinit :
    nextIs (exec .rinit (reading [0xEF#8] 1 0 0xEF#8 false))
      (fun t => decide (t.reader = { pos := 0, off := 0, cur := 0x00#8, valid := true })) = true := by decide

/-- Section 2.3, R-a step 2. -/
theorem test_take_crosses_byte :
    nextIs (exec (.take 5#8) (reading [0x17#8, 0x40#8, 0xE4#8] 0 4 0x17#8 true))
      (fun t => decide (t.cr = okWith 14#32 ∧
        t.reader = { pos := 1, off := 1, cur := 0x40#8, valid := true })) = true := by decide

/-- Section 2.3, R-b step 3: nothing is consumed. -/
theorem test_take_outOfData :
    nextIs (exec (.take 8#8) (reading [0xEF#8, 0x56#8, 0xDF#8, 0x77#8, 0x80#8] 4 1 0x80#8 true))
      (fun t => decide (t.cr = { status := 4#4, value := 0#32 } ∧
        t.reader = { pos := 4, off := 1, cur := 0x80#8, valid := false })) = true := by decide

/-- Section 2.3, R-a step 4. -/
theorem test_takei :
    nextIs (exec (.takei 14#8) (reading [0x17#8, 0x40#8, 0xE4#8] 1 1 0x40#8 true))
      (fun t => decide (t.cr = okWith 12345#32 ∧
        t.reader = { pos := 2, off := 6, cur := 0xE4#8, valid := true })) = true := by decide

/-- Section 2.3, the empty `IN`. -/
theorem test_takei_empty :
    nextIs (exec (.takei 0#8) (reading [] 0 0 0x00#8 true)) (fun t => decide (t.cr = okWith 0#32)) = true ∧
    nextIs (exec (.takei 1#8) (reading [] 0 0 0x00#8 true)) (fun t => decide (t.cr = okWith 1#32)) = true ∧
    nextIs (exec (.takei 2#8) (reading [] 0 0 0x00#8 true))
      (fun t => decide (t.cr = { status := 4#4, value := 0#32 } ∧ t.reader.valid = false)) = true := by decide

/-- Section 1, S4. -/
theorem test_encode :
    nextIs (exec .encode (coding [4#8, 5#8] [1#32, 12345#32] []))
      (fun t => decide (t.cr = okWith 0#32 ∧ t.w0.buf = [0x17#8, 0x40#8, 0xE4#8] ∧ t.w0.fin = true ∧
        t.w1 = { buf := [], pend := 0x00#8, off := 0, fin := false })) = true := by decide

/-- Section 2.4, the errors and their order. -/
theorem test_encode_errors :
    nextIs (exec .encode (coding [0#8, 1#8] [0#32] [])) (fun t => decide (t.cr.status = 1#4)) = true ∧
    nextIs (exec .encode (coding [2#8, 0#8] [1#32, 1#32] [])) (fun t => decide (t.cr.status = 2#4)) = true ∧
    nextIs (exec .encode (coding [1#8, 0#8] [4#32, 1#32] [])) (fun t => decide (t.cr.status = 3#4)) = true := by decide

/-- Section 2.5, the first row. -/
theorem test_decode :
    nextIs (exec .decode (coding [4#8, 5#8] [] [0x17#8, 0x40#8, 0xE4#8]))
      (fun t => decide (t.val = [1#32, 12345#32] ∧
        t.reader = { pos := 2, off := 6, cur := 0xE4#8, valid := false })) = true := by decide

/-- Section 2.5, the second row, and the first pass before the second. -/
theorem test_decode_outOfData :
    nextIs (exec .decode (coding [4#8, 5#8] [4#32] [0x17#8, 0x40#8]))
      (fun t => decide (t.cr.status = 4#4 ∧ t.val = [] ∧
        t.reader = { pos := 1, off := 1, cur := 0x40#8, valid := false })) = true ∧
    nextIs (exec .decode (coding [6#8, 6#8] [] [0x84#8])) (fun t => decide (t.cr.status = 4#4)) = true := by decide

/-! ## Refusals, host actions, fetching -/

/-- Sections 2.2 to 2.5, each refusal of R207 that the default parameters allow. -/
theorem test_refusals :
    refusedIs (exec (.append .w0 0#32 0#8) (writing [0xBF#8] 0x00#8 0 true)) .appendAfterFinish = true ∧
    refusedIs (exec (.appendd .w0 1#32 1#8) (writing [0xBF#8] 0x00#8 0 true)) .appendAfterFinish = true ∧
    refusedIs (exec (.finish .w0) (writing [0xBF#8] 0x00#8 0 true)) .finishTwice = true ∧
    refusedIs (exec (.take 0#8) State.reset) .readerNotValid = true ∧
    refusedIs (exec .encode (coding [0#8, 255#8] [] [])) .fieldWidthOver32 = true ∧
    refusedIs (exec .decode (coding [40#8] [] [])) .fieldWidthOver32 = true ∧
    refusedIs (exec .decode (coding [6#8] [] [0x84#8])) .lengthSpecifierOver32 = true := by decide

/-- Section 2.6: an illegal word is `Illegal` even where a legal one would be refused. -/
theorem test_illegal_before_refusal :
    nextIs (step (issue 0x1100210000000000#64 (writing [0xBF#8] 0x00#8 0 true)))
      (fun t => decide (t.cr = { status := 15#4, value := 0#32 } ∧ t.w0.buf = [0xBF#8])) = true := by decide

/-- Section 3, P4 line 4: `.in W0` copies the buffer and clears `R.valid`. -/
theorem test_copyIn :
    nextIs (step { about (.copyIn .w0) with
        w0 := { buf := [0xF5#8], pend := 0x00#8, off := 0, fin := true }
        reader := { pos := 0, off := 0, cur := 0x00#8, valid := true } })
      (fun t => decide (t.inp = [0xF5#8] ∧ t.reader.valid = false ∧ t.pending = [])) = true := by decide

/-- The next step runs exactly the word placed (section 3, P1 line 2). -/
theorem test_withFetchWord :
    nextIs (step (State.reset.withFetchWord 64 0x1100040000000001))
      (fun t => decide (t.w0 = { buf := [], pend := 0x10#8, off := 4, fin := false } ∧ t.pending = [])) = true := by decide

/-! ## Witnesses: command words -/

theorem test_witness_DecodeOfEncode :
    (Instr.append .w1 0xFFFFFFFF#32 32#8).wellFormed = true ∧ (Instr.takei 0#8).wellFormed = true := by decide

theorem test_witness_EncodeOfDecode : decode 0x2200200000000000#64 = .ok (.takei 32#8) := by decide

theorem test_witness_DecodeFollowsOpcodeMap :
    (0x1100200000000000#64 &&& rowMask .append = rowMatch .append ∧ (fieldWidth 0x1100200000000000#64).toNat ≤ 32) ∧
    0x1100210000000000#64 &&& rowMask .append = rowMatch .append ∧
      ¬ (fieldWidth 0x1100210000000000#64).toNat ≤ 32 := by decide

theorem test_witness_ReservedFieldsAreIllegal :
    (0x1102030000000005#64 : Command).extractLsb' 49 7 ≠ 0#7 ∧ (0x1100030100000005#64 : Command).extractLsb' 32 8 ≠ 0#8 := by
  decide

theorem test_witness_StepRunsDecodedOperation :
    (about (.command 0x0100000000003039#64)).pending = .command 0x0100000000003039#64 :: [] ∧
      decode 0x0100000000003039#64 = .ok (.bitw 12345#32) := by decide

theorem test_witness_IllegalWordOnlyCompletes :
    (about (.command 0#64)).pending = .command 0#64 :: [] ∧ ∀ i : Instr, decode 0#64 ≠ .ok i := by
  refine ⟨rfl, fun i h => ?_⟩
  have : decode 0#64 = .error .unknownOpcode := by decide
  rw [this] at h
  cases h

theorem test_witness_ReservedWidthIsIllegal :
    ([0x1100210000000000#64, 0x1200FF0000000000#64, 0x2100210000000000#64, 0x2200FF0000000000#64].all fun c =>
      decide ((about (.command c)).pending = .command c :: [] ∧ fieldOp c ∈ [0x11#8, 0x12#8, 0x21#8, 0x22#8] ∧
        33 ≤ (fieldWidth c).toNat)) = true := by decide

theorem test_witness_HostActsBetweenOperations :
    (about (.setFw [3#8])).pending = .setFw [3#8] :: [] ∧ (about (.setVal [100#32])).pending = .setVal [100#32] :: [] ∧
    (about (.setIn [])).pending = .setIn [] :: [] ∧ (about (.copyIn .w0)).pending = .copyIn .w0 :: [] ∧
    (about (.copyIn .w1)).pending = .copyIn .w1 :: [] ∧ (about .reset).pending = .reset :: [] := by decide

theorem test_witness_StepPerformsOneAction : ∃ t, step (about .reset) = .next t := ⟨_, rfl⟩

/-! ## Witnesses: `BITW` and the writer -/

theorem test_witness_BitwDeliversNaturalWidth :
    (0#32 : Word) = 0#32 ∧ (0xFFFFFFFF#32 : Word) ≠ 0#32 ∧ (1#32 : Word) ≠ 0#32 := by decide

theorem test_witness_BitwArithmeticLaw :
    (0x80000000#32 : Word) ≠ 0#32 ∧ bitWidth 0x80000000#32 ≤ 32 ∧ (0x7FFFFFFF#32 : Word).toNat ≤ (0x80000000#32 : Word).toNat := by
  decide

/-- The hypotheses of `AppendExtendsContent`, `AppenddExtendsContent` and `AppendClosedForm`, at widths 0 and 32. -/
theorem test_witness_appends :
    ∀ width ∈ [0#8, 32#8], width.toNat ≤ 32 ∧ (writerAt (writing [0xBF#8] 0xFE#8 7 false) .w0).fin = false ∧
      WriterInv (writerAt (writing [0xBF#8] 0xFE#8 7 false) .w0) := by decide

theorem test_witness_AppendExtendsContent :
    (32#8 : Byte).toNat ≤ 32 ∧ (writerAt State.reset .w1).fin = false ∧ WriterInv (writerAt State.reset .w1) := by decide

theorem test_witness_AppenddExtendsContent :
    (1#8 : Byte).toNat ≤ 32 ∧ (writerAt State.reset .w1).fin = false ∧ WriterInv (writerAt State.reset .w1) := by decide

theorem test_witness_AppendClosedForm :
    (9#8 : Byte).toNat ≤ 32 ∧ (writerAt (writing [] 0xA0#8 3 false) .w0).fin = false ∧
      WriterInv (writerAt (writing [] 0xA0#8 3 false) .w0) := by decide

theorem test_witness_AppenddIsAppendOfOneLess : (0#8 : Byte).toNat ≤ 32 ∧ (32#8 : Byte).toNat ≤ 32 := by decide

theorem test_witness_AppendMayBeCut : 0 + 32 ≤ 32 ∧ 31 + 1 ≤ 32 := by decide

/-- With a partial byte and without one. -/
theorem test_witness_FinishPadsAndFlushes :
    ∀ s ∈ [writing [0xBF#8] 0xC0#8 2 false, writing [0xBF#8] 0x00#8 0 false],
      (writerAt s .w0).fin = false ∧ WriterInv (writerAt s .w0) := by decide

theorem test_witness_FinishedWriterRefuses :
    (writerAt (writing [0xBF#8] 0x00#8 0 true) .w0).fin = true ∧ (32#8 : Byte).toNat ≤ 32 := by decide

/-- The operations of the hypothesis, and that each of the three outcomes is met. -/
theorem test_witness_WriterRaisesNoError :
    opOf (.winit .w0) ∈ [Op.winit, Op.append, Op.appendd, Op.finish] ∧
    nextIs (execWith Config.params (.winit .w0) State.reset) (fun t => decide (t.cr = okWith 0#32)) = true ∧
    (Instr.append .w0 0#32 33#8).wellFormed = false ∧
    refusedIs (execWith Config.params (.finish .w0) (writing [] 0x00#8 0 true)) .finishTwice = true ∧
    refusedIs (execWith { Config.params with capBuf := some 0 } (.append .w0 0#32 8#8) State.reset) .capacityExceeded =
      true := by decide

theorem test_witness_AppendsPackTightly :
    ∀ p ∈ [((5#32 : Word), (3#8 : Byte)), (0xFFFFFFFF#32, 32#8), (0#32, 0#8)], p.2.toNat ≤ 32 := by
  simp

theorem test_witness_WriterContextsAreIndependent :
    (∀ i ∈ [Instr.winit .w1, .append .w1 5#32 3#8, .appendd .w1 5#32 3#8, .finish .w1],
      i = .winit .w1 ∨ (∃ v w, i = .append .w1 v w) ∨ (∃ v w, i = .appendd .w1 v w) ∨ i = .finish .w1) ∧
    WSel.w0 ≠ WSel.w1 ∧ writerAt (writing [0xBF#8] 0xF0#8 4 false) .w1 = writerAt State.reset .w1 ∧
    (∃ t, exec (.append .w1 5#32 3#8) State.reset = .next t) ∧
    exec (.finish .w0) (writing [] 0x00#8 0 true) = .refused .finishTwice ∧
    opOf .rinit ∈ [Op.bitw, .rinit, .take, .takei, .decode] ∧ ∃ t, exec .rinit State.reset = .next t := by
  refine ⟨?_, by decide, by decide, ⟨_, rfl⟩, rfl, by decide, _, rfl⟩
  intro i hi
  simp only [List.mem_cons, List.not_mem_nil, or_false] at hi
  rcases hi with rfl | rfl | rfl | rfl
  · exact .inl rfl
  · exact .inr (.inl ⟨_, _, rfl⟩)
  · exact .inr (.inr (.inl ⟨_, _, rfl⟩))
  · exact .inr (.inr (.inr rfl))

theorem test_witness_PushedBytesStay :
    opOf (.finish .w0) ∈ [Op.append, Op.appendd, Op.finish] ∧
    ∃ t, exec (.finish .w0) (writing [0xBF#8] 0xC0#8 2 false) = .next t := ⟨by decide, _, rfl⟩

/-! ## Witnesses: the reader -/

/-- At width 0 at the end of `IN`, and at width 32 over five bytes with all bits read. -/
theorem test_witness_TakeDeliversNextBits :
    ((0#8 : Byte).toNat ≤ 32 ∧ (reading [0xEF#8] 1 0 0xEF#8 true).reader.valid = true ∧
      ReaderInv [0xEF#8] (reading [0xEF#8] 1 0 0xEF#8 true).reader ∧
      (0#8 : Byte).toNat ≤ remBits [0xEF#8] (reading [0xEF#8] 1 0 0xEF#8 true).reader) ∧
    (32#8 : Byte).toNat ≤ 32 ∧ (reading [0xEF#8, 0x56#8, 0xDF#8, 0x77#8, 0x80#8] 0 1 0xEF#8 true).reader.valid = true ∧
      ReaderInv [0xEF#8, 0x56#8, 0xDF#8, 0x77#8, 0x80#8]
        (reading [0xEF#8, 0x56#8, 0xDF#8, 0x77#8, 0x80#8] 0 1 0xEF#8 true).reader ∧
      (32#8 : Byte).toNat ≤ remBits [0xEF#8, 0x56#8, 0xDF#8, 0x77#8, 0x80#8]
        (reading [0xEF#8, 0x56#8, 0xDF#8, 0x77#8, 0x80#8] 0 1 0xEF#8 true).reader := by decide

/-- Widths 0 and 1 on the empty `IN`, and width 32 with exactly 31 bits left. -/
theorem test_witness_TakeiRestoresLeadingOne :
    (∀ width ∈ [0#8, 1#8], width.toNat ≤ 32 ∧ (reading [] 0 0 0x00#8 true).reader.valid = true ∧
      ReaderInv [] (reading [] 0 0 0x00#8 true).reader ∧
      width.toNat - 1 ≤ remBits [] (reading [] 0 0 0x00#8 true).reader) ∧
    (32#8 : Byte).toNat ≤ 32 ∧ (reading [0xFF#8, 0#8, 0#8, 0#8] 0 1 0xFF#8 true).reader.valid = true ∧
      ReaderInv [0xFF#8, 0#8, 0#8, 0#8] (reading [0xFF#8, 0#8, 0#8, 0#8] 0 1 0xFF#8 true).reader ∧
      1 ≤ (32#8 : Byte).toNat ∧
      (32#8 : Byte).toNat - 1 ≤ remBits [0xFF#8, 0#8, 0#8, 0#8] (reading [0xFF#8, 0#8, 0#8, 0#8] 0 1 0xFF#8 true).reader := by
  decide

theorem test_witness_TakeiResultHasItsWidth :
    1 ≤ (14#8 : Byte).toNat ∧ (14#8 : Byte).toNat ≤ 32 ∧
    ∃ t, exec (.takei 14#8) (reading [0x17#8, 0x40#8, 0xE4#8] 1 1 0x40#8 true) = .next t ∧ t.cr.status = 0#4 :=
  ⟨by decide, by decide, nextIs_status (by decide)⟩

/-- One bit, the last of `IN`; and 32 bits over five bytes. -/
theorem test_witness_TakeClosedForm :
    (1 ≤ (1#8 : Byte).toNat ∧ (1#8 : Byte).toNat ≤ 32 ∧ (reading [0xEF#8] 0 7 0xEF#8 true).reader.valid = true ∧
      ReaderInv [0xEF#8] (reading [0xEF#8] 0 7 0xEF#8 true).reader ∧
      (1#8 : Byte).toNat ≤ remBits [0xEF#8] (reading [0xEF#8] 0 7 0xEF#8 true).reader) ∧
    1 ≤ (32#8 : Byte).toNat ∧ (reading [0xEF#8, 0x56#8, 0xDF#8, 0x77#8, 0x80#8] 0 1 0xEF#8 true).reader.valid = true ∧
      ReaderInv [0xEF#8, 0x56#8, 0xDF#8, 0x77#8, 0x80#8]
        (reading [0xEF#8, 0x56#8, 0xDF#8, 0x77#8, 0x80#8] 0 1 0xEF#8 true).reader ∧
      (32#8 : Byte).toNat ≤ remBits [0xEF#8, 0x56#8, 0xDF#8, 0x77#8, 0x80#8]
        (reading [0xEF#8, 0x56#8, 0xDF#8, 0x77#8, 0x80#8] 0 1 0xEF#8 true).reader := by decide

/-- One bit too few for `TAKE 1` and for `TAKEI 2`. -/
theorem test_witness_ReadsPastTheEndFail :
    (1#8 : Byte).toNat ≤ 32 ∧ (reading [] 0 0 0x00#8 true).reader.valid = true ∧
    remBits [] (reading [] 0 0 0x00#8 true).reader < (1#8 : Byte).toNat ∧
    (2#8 : Byte).toNat ≤ 32 ∧ 1 ≤ (2#8 : Byte).toNat ∧
    remBits [] (reading [] 0 0 0x00#8 true).reader < (2#8 : Byte).toNat - 1 := by decide

theorem test_witness_InvalidReaderRefuses : (0#8 : Byte).toNat ≤ 32 ∧ State.reset.reader.valid = false := by decide

theorem test_witness_ReaderOutcomes :
    opOf .rinit ∈ [Op.rinit, Op.take, Op.takei] ∧ opOf (.take 32#8) ∈ [Op.rinit, Op.take, Op.takei] ∧
    opOf (.takei 33#8) ∈ [Op.rinit, Op.take, Op.takei] := by decide

/-- The pieces of section 2.3's inversion example, and a plain one of width 32. -/
theorem test_witness_ReadsInvertAppends :
    ∀ p ∈ [Piece.dropped 0#32 0#8, .dropped 1#32 1#8, .dropped 3#32 2#8, .dropped 5#32 3#8,
      .dropped 0xFFFFFFFF#32 32#8, .plain 0xDEADBEEF#32 32#8], p.Legal := by
  simp only [List.mem_cons, List.not_mem_nil, or_false, forall_eq_or_imp, forall_eq]
  exact ⟨by decide, by decide, by decide, by decide, by decide, by decide⟩

/-! ## Witnesses: `ENCODE` and `DECODE` -/

/-- Section 2.4: both at their boundary, `2^2 − 1` and `2^3 − 1`. -/
theorem encodable_boundary : EncodableFields [2#8, 3#8] [7#32, 127#32] := by
  refine ⟨?_, rfl, ?_⟩
  · unfold NoWideField
    decide
  · simp only [List.zip_cons_cons, List.zip_nil_right, List.forall_mem_cons]
    exact ⟨⟨by decide, by decide⟩, ⟨by decide, by decide⟩, by simp⟩

theorem test_witness_EncodeWritesTheFormat :
    EncodableFields (coding [2#8, 3#8] [7#32, 127#32] []).fw (coding [2#8, 3#8] [7#32, 127#32] []).val := encodable_boundary

theorem test_witness_DecodeInvertsEncode :
    EncodableFields (coding [2#8, 3#8] [7#32, 127#32] []).fw (coding [2#8, 3#8] [7#32, 127#32] []).val := encodable_boundary

theorem test_witness_EncodeEqualsSingleStream :
    ∃ t, exec .encode (coding [3#8, 3#8] [0#32, 5#32] []) = .next t ∧ t.cr.status = 0#4 := nextIs_status (by decide)

/-- A count that differs; then field 1 of width 0, and field 1 with natural width `2^2`, each after a field that fits. -/
theorem test_witness_EncodeReportsFirstError :
    (NoWideField (coding [1#8] [] []).fw ∧ (coding [1#8] [] []).fw.length ≠ (coding [1#8] [] []).val.length) ∧
    (NoWideField (coding [1#8, 0#8] [1#32, 1#32] []).fw ∧ (coding [1#8, 0#8] [1#32, 1#32] []).fw = [1#8] ++ 0#8 :: [] ∧
      (coding [1#8, 0#8] [1#32, 1#32] []).val = [1#32] ++ 1#32 :: [] ∧ [1#8].length = [1#32].length ∧
      ∀ f ∈ [1#8].zip [1#32], FieldFits f.1 f.2) ∧
    (NoWideField (coding [1#8, 2#8] [1#32, 8#32] []).fw ∧ (coding [1#8, 2#8] [1#32, 8#32] []).fw = [1#8] ++ 2#8 :: [] ∧
      (coding [1#8, 2#8] [1#32, 8#32] []).val = [1#32] ++ 8#32 :: [] ∧ (2#8 : Byte) ≠ 0#8 ∧
      2 ^ (2#8 : Byte).toNat - 1 < bitWidth 8#32) := by
  have one : ∀ f ∈ [1#8].zip [1#32], FieldFits f.1 f.2 := by
    simp only [List.zip_cons_cons, List.zip_nil_right, List.forall_mem_cons]
    exact ⟨⟨by decide, by decide⟩, by simp⟩
  unfold NoWideField
  exact ⟨⟨by decide, by decide⟩, ⟨by decide, rfl, rfl, rfl, one⟩, by decide, rfl, rfl, by decide, by decide⟩

theorem test_witness_FailedEncodeKeepsNothing :
    ∃ t, exec .encode (coding [1#8] [4#32] []) = .next t ∧ t.cr.status ≠ 0#4 := by
  obtain ⟨t, h1, h2⟩ := nextIs_status (o := exec .encode (coding [1#8] [4#32] [])) (c := 3#4) (by decide)
  exact ⟨t, h1, by rw [h2]; decide⟩

/-- Another state with the same `FW` and `VAL`; and that each of the two outcomes is met. -/
theorem test_witness_EncodeIgnoresEarlierState :
    (writing [0xBF#8] 0xF0#8 4 false).fw = State.reset.fw ∧ (writing [0xBF#8] 0xF0#8 4 false).val = State.reset.val ∧
    (∃ t, exec .encode State.reset = .next t) ∧
    exec .encode (coding [33#8] [0#32] []) = .refused .fieldWidthOver32 := ⟨rfl, rfl, ⟨_, rfl⟩, rfl⟩

theorem test_witness_WideFieldIsRefused :
    (∃ w ∈ (coding [33#8] [0#32] []).fw, 33 ≤ w.toNat) ∧ ∃ w ∈ (coding [0#8, 255#8] [] []).fw, 33 ≤ w.toNat := by decide

theorem test_witness_LargestValuePerWidth :
    ∀ w ∈ [1#8, 2#8, 3#8, 4#8, 5#8, 6#8, 32#8], 1 ≤ w.toNat ∧ w.toNat ≤ 32 := by decide

/-- Section 2.5, `[2]`, `[0xBF]`. -/
theorem test_witness_DecodeReadsTheFormat :
    NoWideField (coding [2#8] [] [0xBF#8]).fw ∧ (∀ nw ∈ inputSpecs (coding [2#8] [] [0xBF#8]), nw ≤ 32) ∧
      widthSum (coding [2#8] [] [0xBF#8]).fw + payloadSum (inputSpecs (coding [2#8] [] [0xBF#8])) ≤ 8 * (coding [2#8] [] [0xBF#8]).inp.length := by
  unfold NoWideField
  decide

/-- Short in the first pass (S8), and by one bit in the second (section 2.5, `[3]`, `[0xFF]`). -/
theorem test_witness_DecodeOfShortInputFails :
    (NoWideField (coding [6#8, 1#8] [] []).fw ∧ 8 * (coding [6#8, 1#8] [] []).inp.length < widthSum [6#8, 1#8]) ∧
    NoWideField (coding [3#8] [] [0xFF#8]).fw ∧ widthSum [3#8] ≤ 8 * (coding [3#8] [] [0xFF#8]).inp.length ∧
      ∃ k, (∀ nw ∈ (inputSpecs (coding [3#8] [] [0xFF#8])).take k, nw ≤ 32) ∧
        8 * (coding [3#8] [] [0xFF#8]).inp.length <
          widthSum [3#8] + payloadSum ((inputSpecs (coding [3#8] [] [0xFF#8])).take k) := by
  unfold NoWideField
  exact ⟨by decide, by decide, by decide, 1, by decide, by decide⟩

/-- Section 2.5, `[6]`, `[0x84]`: the specifier 33. -/
theorem test_witness_OverlongSpecifierIsRefused :
    NoWideField (coding [6#8] [] [0x84#8]).fw ∧ widthSum [6#8] ≤ 8 * (coding [6#8] [] [0x84#8]).inp.length ∧
      inputSpecs (coding [6#8] [] [0x84#8]) = [] ++ 33 :: [] ∧ 33 ≤ 33 ∧ (∀ n ∈ ([] : List Nat), n ≤ 32) ∧
      widthSum [6#8] + payloadSum [] ≤ 8 * (coding [6#8] [] [0x84#8]).inp.length := by
  unfold NoWideField
  decide

/-- Section 2.5, `[2]`, `[0xA0]`, before a field of width 0 is put in front. -/
theorem test_witness_ZeroWidthFieldDecodesToZero :
    (coding [2#8] [] [0xA0#8]).fw = [] ++ [2#8] ∧
    ∃ t, exec .decode (coding [2#8] [] [0xA0#8]) = .next t ∧ t.cr.status = 0#4 := ⟨rfl, nextIs_status (by decide)⟩

theorem test_witness_DecodeIgnoresTrailingBytes :
    ∃ t, exec .decode (coding [4#8, 5#8] [] [0x17#8, 0x40#8, 0xE4#8]) = .next t ∧ t.cr.status = 0#4 :=
  nextIs_status (by decide)

/-! ## Witnesses: the whole machine and the parameters -/

theorem test_witness_StepKeepsEngineInv :
    EngineInv (about (.command 0x0100000000003039#64)) ∧
    ∃ t, step (about (.command 0x0100000000003039#64)) = .next t := by
  have h1 : EngineInv (about (.command 0x0100000000003039#64)) := by decide
  obtain ⟨t, h2, -⟩ := nextIs_exists (o := step (about (.command 0x0100000000003039#64))) (p := fun _ => true) (by decide)
  exact ⟨h1, t, h2⟩

/-- One operation for each clause. -/
theorem test_witness_OperationsTouchOnlyTheirState :
    (∃ t, exec .encode State.reset = .next t) ∧ opOf .encode ≠ .decode ∧
      opOf .encode ∉ [Op.rinit, .take, .takei, .decode] ∧
    (∃ t, exec .decode State.reset = .next t) ∧ opOf .decode ∈ [Op.bitw, .rinit, .take, .takei, .decode] :=
  ⟨⟨_, rfl⟩, by decide, by decide, ⟨_, rfl⟩, by decide⟩

/-- A failing read; `RINIT`; and `BITW` of the largest value. -/
theorem test_witness_CompletionValueRule :
    (∃ t, exec (.take 1#8) (reading [] 0 0 0x00#8 true) = .next t ∧ t.cr.status = 4#4) ∧
    ((∃ t, exec .rinit State.reset = .next t) ∧ opOf .rinit ∉ [Op.bitw, .take, .takei]) ∧
    (∃ t, exec (.bitw 0xFFFFFFFF#32) State.reset = .next t) ∧ opOf (.bitw 0xFFFFFFFF#32) = .bitw :=
  ⟨nextIs_status (by decide), ⟨⟨_, rfl⟩, by decide⟩, ⟨_, rfl⟩, rfl⟩

/-- A well-formed operation for each of the three disjuncts. -/
theorem test_witness_StatusesPerOperation :
    (Instr.rinit.wellFormed = true ∧ ∃ t, exec .rinit State.reset = .next t) ∧
    (Instr.encode.wellFormed = true ∧ ∃ t, exec .encode (coding [0#8] [0#32] []) = .next t ∧ t.cr.status = 2#4) ∧
    Instr.decode.wellFormed = true ∧ ∃ t, exec .decode (coding [6#8, 1#8] [] []) = .next t ∧ t.cr.status = 4#4 :=
  ⟨⟨rfl, _, rfl⟩, ⟨rfl, nextIs_status (by decide)⟩, rfl, nextIs_status (by decide)⟩

/-- A well-formed operation refused for each listed reason. -/
theorem test_witness_RefusedOnlyAsListed :
    ((Instr.append .w0 0#32 0#8).wellFormed = true ∧
      exec (.append .w0 0#32 0#8) (writing [] 0x00#8 0 true) = .refused .appendAfterFinish) ∧
    exec (.finish .w0) (writing [] 0x00#8 0 true) = .refused .finishTwice ∧
    exec (.take 0#8) State.reset = .refused .readerNotValid ∧
    exec .encode (coding [33#8] [0#32] []) = .refused .fieldWidthOver32 ∧
    refusedIs (exec .decode (coding [6#8] [] [0x84#8])) .lengthSpecifierOver32 = true :=
  ⟨⟨rfl, rfl⟩, rfl, rfl, rfl, by decide⟩

theorem test_witness_BitPositionNeverDecreases :
    opOf (.take 8#8) ∉ [Op.rinit, .decode] ∧
    (∃ t, exec (.take 8#8) (reading [0xEF#8] 0 0 0x00#8 true) = .next t ∧ t.cr.status = 0#4) ∧
    opOf .encode ∉ [Op.rinit, .decode] ∧ opOf .encode ∉ [Op.take, .takei] ∧ ∃ t, exec .encode State.reset = .next t :=
  ⟨by decide, nextIs_status (by decide), by decide, by decide, _, rfl⟩

theorem test_witness_CurrentByteIsUnreadWhenAligned :
    (reading [0xEF#8] 0 0 0x00#8 true).reader.off = 0 ∧
    ∃ t, exec (.take 1#8) (reading [0xEF#8] 0 0 0x00#8 true) = .next t ∧ t.reader.off ≠ 0 := by
  refine ⟨rfl, ?_⟩
  obtain ⟨t, h1, h2⟩ := nextIs_exists (o := exec (.take 1#8) (reading [0xEF#8] 0 0 0x00#8 true))
    (p := fun t => decide (t.reader.off ≠ 0)) (by decide)
  exact ⟨t, h1, of_decide_eq_true h2⟩

theorem test_witness_CursorOfInvalidReaderIsUnobservable :
    State.reset.reader.valid = false ∧ (reading [] 7 3 0xFF#8 false).reader.valid = false ∧
    ∃ t, exec .rinit State.reset = .next t ∧ t.reader.valid = true := ⟨rfl, rfl, _, rfl, rfl⟩

/-- Capacities met exactly by the push of one byte. -/
theorem test_witness_CapacitiesOnlyRefuse :
    WithinCapacity { Config.params with capBuf := some 1, capN := some 0 } (about (.command 0x11000800000000FF#64)) ∧
    ∃ t, stepWith { Config.params with capBuf := some 1, capN := some 0 } (about (.command 0x11000800000000FF#64)) =
      .next t := by
  have h1 : WithinCapacity { Config.params with capBuf := some 1, capN := some 0 }
    (about (.command 0x11000800000000FF#64)) := by decide
  obtain ⟨t, h2, -⟩ := nextIs_exists
    (o := stepWith { Config.params with capBuf := some 1, capN := some 0 } (about (.command 0x11000800000000FF#64)))
    (p := fun _ => true) (by decide)
  exact ⟨h1, t, h2⟩

/-- A replacement of `FW` by one entry more than `CAP_N`. -/
theorem test_witness_ExceedingCapacityIsRefused :
    WithinCapacity { Config.params with capN := some 1 } (about (.setFw [1#8, 2#8])) ∧
    ∃ t, stepWith { Config.params with capBuf := none, capN := none } (about (.setFw [1#8, 2#8])) = .next t ∧
      ¬ WithinCapacity { Config.params with capN := some 1 } t := by
  have h1 : WithinCapacity { Config.params with capN := some 1 } (about (.setFw [1#8, 2#8])) := by decide
  refine ⟨h1, _, rfl, ?_⟩
  decide

theorem test_witness_RejectPolicyCompletes :
    ({ Config.params with wideField := .reject 5#4 } : Params).wideField = .reject 5#4 ∧
    ∃ w ∈ (coding [33#8] [0#32] []).fw, 33 ≤ w.toNat := by decide

end Sys2Proof.Tests
end

section
/-! PROOFS. The OPEN parameters of R5: the default instance, and the alternative `reject` of `WIDE_FIELD_POLICY`. -/

namespace Sys2Proof.Machine

open Sys2Proof

/-! ## The machine at the defaults of R5 -/

/-- An operation that reads a parameter is defined as its general form at `Config.params`; the others read none. -/
theorem execWith_params : execWith Config.params = exec := by
  funext i s
  cases i <;> rfl

/-- `step` and `stepWith` run one engine and differ in the meanings they hand it only. -/
theorem stepWith_params : stepWith Config.params = step := by
  funext s
  rw [stepWith, execWith_params, step]

/-- Settles O57: meaning by meaning, and so step by step. -/
theorem execIsTheDefaultInstance : Obligations.ExecIsTheDefaultInstance :=
  fun i s => ⟨congrFun (congrFun execWith_params i) s, congrFun stepWith_params s⟩

/-! ## A wide field width (R166, R184, D13) -/

section
variable {p : Params} {s : State}

/-- R166: with a wide entry in `FW` the policy decides `ENCODE`, and no other check is made. -/
theorem execEncodeWith_wide (hw : anyWide s.fw = true) :
    execEncodeWith p s = storeEncoded s (.error (policyStop p.wideField .fieldWidthOver32)) :=
  if_pos hw

/-- R184: the same for `DECODE`, which has read nothing yet, so the cursor is the one before it. -/
theorem execDecodeWith_wide (hw : anyWide s.fw = true) :
    execDecodeWith p s = policyDecode p.wideField .fieldWidthOver32 s.reader s :=
  if_pos hw

theorem execEncodeWith_wide_reject {c : BitVec 4} (hp : p.wideField = .reject c) (hw : anyWide s.fw = true) :
    execEncodeWith p s = .next (failEncode c s) := by
  rw [execEncodeWith_wide hw, hp]
  rfl

theorem execDecodeWith_wide_reject {c : BitVec 4} (hp : p.wideField = .reject c) (hw : anyWide s.fw = true) :
    execDecodeWith p s = .next (failDecode c s.reader s) := by
  rw [execDecodeWith_wide hw, hp]
  rfl

end

/-- Settles O60: a wide entry leaves the outcome to the policy, and `reject` gives the failure effects of R162 and R181. -/
theorem rejectPolicyCompletes : Obligations.RejectPolicyCompletes := by
  intro p c s hp hwide
  have hw : anyWide s.fw = true := anyWide_iff.2 hwide
  exact ⟨execEncodeWith_wide_reject hp hw, execDecodeWith_wide_reject hp hw⟩

end Sys2Proof.Machine
end

section
/-! PROOFS. The operations as rules: every way an operation completes and the state it then leaves, under the default parameters
of R5. A statement over all operations is a case analysis of these rules. -/

namespace Sys2Proof.Machine

open Sys2Proof

/-! ## The rules -/

/-- `Writes s i sel w`: in the state `s` the operation `i` replaces the writer context `sel` by `w` (R120 to R123). -/
inductive Writes (s : State) : Instr → WSel → BitWriter → Prop
  | winit (sel : WSel) : Writes s (.winit sel) sel initWriter
  | append {sel : WSel} {value : Word} {width : Byte} (hw : width.toNat ≤ 32) (hf : (writerAt s sel).fin = false) :
    Writes s (.append sel value width) sel (appendBitsOf (writerAt s sel) value width.toNat)
  | appendd {sel : WSel} {value : Word} {width : Byte} (hw : width.toNat ≤ 32) (hf : (writerAt s sel).fin = false) :
    Writes s (.appendd sel value width) sel (appendBitsOf (writerAt s sel) value (width.toNat - 1))
  | finish {sel : WSel} (hf : (writerAt s sel).fin = false) :
    Writes s (.finish sel) sel (finishOf (writerAt s sel))

/-- What `TAKEI` delivers for the `width − 1` bits `v`: 0 for width 0, else the leading one restored (R142). -/
def takeiResult (width v : Nat) : Nat := if width = 0 then 0 else 2 ^ (width - 1) + v

/-- `Reads i k result`: the operation `i` reads `k` bits and delivers `result` of their number (R141, R142). -/
inductive Reads : Instr → (k : Nat) → (result : Nat → Nat) → Prop
  | take {width : Byte} (hw : width.toNat ≤ 32) : Reads (.take width) width.toNat id
  | takei {width : Byte} (hw : width.toNat ≤ 32) :
    Reads (.takei width) (width.toNat - 1) (takeiResult width.toNat)

/-- `Completes i s t`: in the state `s` the operation `i` completes, and leaves `t`. -/
inductive Completes : Instr → State → State → Prop
  /-- A reserved width is `Illegal` (R85). -/
  | reservedWidth {i : Instr} {s : State} (hi : i.wellFormed = false) : Completes i s (complete 15#4 0#32 s)
  | bitw (value : Word) (s : State) :
    Completes (.bitw value) s (complete 0#4 (BitVec.ofNat 32 (bitWidth value)) s)
  | write {i : Instr} {s : State} {sel : WSel} {w : BitWriter} (hw : Writes s i sel w) :
    Completes i s (complete 0#4 0#32 (setWriter s sel w))
  | rinit (s : State) : Completes .rinit s (complete 0#4 0#32 { s with reader := initReader })
  | read {i : Instr} {s : State} {k v : Nat} {result : Nat → Nat} {r : BitReader} (hi : Reads i k result)
    (hv : s.reader.valid = true) (hr : takeBitsOf s.inp s.reader k = some (v, r)) :
    Completes i s (complete 0#4 (BitVec.ofNat 32 (result v)) { s with reader := r })
  /-- A read past the end of `IN` (R141, R142). -/
  | readOutOfData {i : Instr} {s : State} {k : Nat} {result : Nat → Nat} (hi : Reads i k result)
    (hv : s.reader.valid = true) (hr : takeBitsOf s.inp s.reader k = none) :
    Completes i s (complete 4#4 0#32 { s with reader := clearValid s.reader })
  | encode {s : State} {w : BitWriter} (hfw : anyWide s.fw = false) (hw : encodeBody none s.fw s.val = .ok w) :
    Completes .encode s (complete 0#4 0#32 { s with w0 := w, w1 := initWriter })
  /-- An error of `ENCODE` (R161, R162). -/
  | encodeError {s : State} {c : BitVec 4} (hfw : anyWide s.fw = false)
    (hc : encodeBody none s.fw s.val = .error (.raise c)) : Completes .encode s (failEncode c s)
  | decode {s : State} {xs : List Word} {r : BitReader} (hfw : anyWide s.fw = false)
    (hr : decodePasses s.inp s.fw = .done xs r) :
    Completes .decode s (complete 0#4 0#32 { s with val := xs, reader := clearValid r })
  /-- A pass of `DECODE` meets the end of `IN` (R181). -/
  | decodeOutOfData {s : State} {r : BitReader} (hfw : anyWide s.fw = false)
    (hr : decodePasses s.inp s.fw = .outOfData r) : Completes .decode s (failDecode 4#4 r s)

/-! ## The rules are `exec` -/

/-- Each next state of `exec` comes by one of the rules. -/
theorem completes_of_exec {i : Instr} {s t : State} (h : exec i s = .next t) : Completes i s t := by
  cases i with
  | bitw value => cases h; exact .bitw value s
  | winit sel => cases h; exact .write (.winit sel)
  | append sel value width =>
    rcases execAppendWith_next (p := Config.params) h with ⟨hw, rfl⟩ | ⟨hw, hf, rfl, -⟩
    · exact .reservedWidth (by simpa [Instr.wellFormed] using hw)
    · exact .write (.append hw hf)
  | appendd sel value width =>
    rcases execAppenddWith_next (p := Config.params) h with ⟨hw, rfl⟩ | ⟨hw, hf, rfl, -⟩
    · exact .reservedWidth (by simpa [Instr.wellFormed] using hw)
    · exact .write (.appendd hw hf)
  | finish sel =>
    obtain ⟨hf, rfl, -⟩ := execFinishWith_next (p := Config.params) h
    exact .write (.finish hf)
  | rinit => cases h; exact .rinit s
  | take width =>
    rcases execTake_next h with ⟨hw, rfl⟩ | ⟨hw, hv, ⟨hr, rfl⟩ | ⟨v, r, hr, rfl⟩⟩
    · exact .reservedWidth (by simpa [Instr.wellFormed] using hw)
    · exact .readOutOfData (.take hw) hv (takeBitsOf_eq_none.2 hr)
    · exact .read (.take hw) hv hr
  | takei width =>
    rcases execTakei_next h with ⟨hw, rfl⟩ | ⟨hw, hv, ⟨h0, rfl⟩ | ⟨-, hr, rfl⟩ | ⟨h0, v, r, hr, rfl⟩⟩
    · exact .reservedWidth (by simpa [Instr.wellFormed] using hw)
    · have := Completes.read (.takei hw) hv (v := 0) (r := s.reader) (by rw [h0]; exact takeBitsOf_zero ..)
      rwa [takeiResult, if_pos h0] at this
    · exact .readOutOfData (.takei hw) hv (takeBitsOf_eq_none.2 hr)
    · have := Completes.read (.takei hw) hv hr
      rwa [takeiResult, if_neg h0] at this
  | encode =>
    rcases execEncodeWith_next (p := Config.params) h with ⟨-, c, hp, -⟩ | ⟨hfw, ⟨w, hw, rfl⟩ | ⟨c, hc, rfl⟩⟩
    · cases hp
    · exact .encode hfw hw
    · exact .encodeError hfw hc
  | decode =>
    rcases execDecodeWith_next (p := Config.params) h with
      ⟨-, c, hp, -⟩ | ⟨hfw, ⟨xs, r, hr, -, rfl⟩ | ⟨r, hr, rfl⟩ | ⟨r, c, -, hp, -⟩⟩
    · cases hp
    · exact .decode hfw hr
    · exact .decodeOutOfData hfw hr
    · cases hp

/-- R85, log entry 6: `exec` of a term with a reserved width. -/
theorem exec_reservedWidth {i : Instr} (hi : i.wellFormed = false) (s : State) :
    exec i s = .next (complete 15#4 0#32 s) := by
  have hlegal {width : Byte} (hw : decide (width.toNat ≤ Config.widthMax) = false) : legalWidth width = false := hw
  cases i with
  | append sel value width => exact if_pos (hlegal hi)
  | appendd sel value width => exact if_pos (hlegal hi)
  | take width => exact if_pos (hlegal hi)
  | takei width => exact if_pos (hlegal hi)
  | bitw | winit | finish | rinit | encode | decode => cases hi

theorem exec_of_writes {i : Instr} {s : State} {sel : WSel} {w : BitWriter} (h : Writes s i sel w) :
    exec i s = .next (complete 0#4 0#32 (setWriter s sel w)) := by
  cases h with
  | winit => rfl
  | append hw hf => exact execAppend_open hw hf
  | appendd hw hf => exact execAppendd_open hw hf
  | finish hf => exact execFinish_open hf

/-- A reading operation on a valid reader, whatever it meets. -/
theorem exec_of_reads {i : Instr} {s : State} {k : Nat} {result : Nat → Nat} (h : Reads i k result)
    (hv : s.reader.valid = true) : exec i s = storeRead s result (takeBitsOf s.inp s.reader k) := by
  cases h with
  | take hw => exact execTake_valid hw hv
  | @takei width hw =>
    by_cases h0 : width.toNat = 0
    · rw [exec, execTakei, legalWidth_iff.2 hw, hv, if_pos h0, h0, takeBitsOf_zero]
      rfl
    · rw [exec, execTakei_valid hw hv h0]
      cases hr : takeBitsOf s.inp s.reader (width.toNat - 1) with
      | none => rfl
      | some p => simp only [storeRead, restoreLeadingOne_eq (takeBitsOf_lt hr), takeiResult, if_neg h0]

/-- What a rule says, `exec` does. -/
theorem exec_of_completes {i : Instr} {s t : State} (h : Completes i s t) : exec i s = .next t := by
  cases h with
  | reservedWidth hi => exact exec_reservedWidth hi s
  | bitw => rfl
  | write hw => exact exec_of_writes hw
  | rinit => rfl
  | read hi hv hr => rw [exec_of_reads hi hv, hr]; rfl
  | readOutOfData hi hv hr => rw [exec_of_reads hi hv, hr]; rfl
  | encode hfw hw =>
    have hb : encodeBody Config.params.capBuf s.fw s.val = _ := hw
    rw [exec, execEncode, execEncodeWith, hfw, hb]; rfl
  | encodeError hfw hc =>
    have hb : encodeBody Config.params.capBuf s.fw s.val = _ := hc
    rw [exec, execEncode, execEncodeWith, hfw, hb]; rfl
  | decode hfw hr => rw [exec, execDecode, execDecodeWith, hfw, hr]; rfl
  | decodeOutOfData hfw hr => rw [exec, execDecode, execDecodeWith, hfw, hr]; rfl

/-- The rules are exact: they give the next states of `exec` and no others. -/
theorem exec_next_iff {i : Instr} {s t : State} : exec i s = .next t ↔ Completes i s t :=
  ⟨completes_of_exec, exec_of_completes⟩

end Sys2Proof.Machine
end

section
/-! PROOFS. The state (10_state.md): the values after reset, the host's accesses, what every operation leaves unchanged, and the
invariants that every step keeps. -/

namespace Sys2Proof.Machine

open Sys2Proof

/-! ## Which operations write and read -/

theorem opOf_notMem_of_writes {i : Instr} {s : State} {sel : WSel} {w : BitWriter} (h : Writes s i sel w) :
    opOf i ∉ [Op.bitw, .rinit, .take, .takei, .decode] := by
  cases h <;> simp [opOf]

theorem opOf_of_reads {i : Instr} {k : Nat} {result : Nat → Nat} (h : Reads i k result) :
    opOf i = .take ∨ opOf i = .takei := by
  cases h <;> simp [opOf]

/-! ## Frames (R25, R27, R28) -/

/-- Settles O50, rule by rule. -/
theorem operationsTouchOnlyTheirState : Obligations.OperationsTouchOnlyTheirState := by
  intro i s t h
  cases completes_of_exec h with
  | reservedWidth | bitw => exact ⟨rfl, rfl, rfl, fun _ => rfl, fun _ => rfl, fun _ => ⟨rfl, rfl⟩⟩
  | write hw =>
    exact ⟨by simp, by simp, by simp, fun _ => by simp, fun _ => by simp,
      fun hi => absurd hi (opOf_notMem_of_writes hw)⟩
  | rinit => exact ⟨rfl, rfl, rfl, fun _ => rfl, fun hi => absurd (by decide) hi, fun _ => ⟨rfl, rfl⟩⟩
  | read hr | readOutOfData hr =>
    refine ⟨rfl, rfl, rfl, fun _ => rfl, fun hi => ?_, fun _ => ⟨rfl, rfl⟩⟩
    rcases opOf_of_reads hr with hop | hop <;> simp [hop] at hi
  | encode | encodeError => exact ⟨rfl, rfl, rfl, fun _ => rfl, fun _ => rfl, fun hi => absurd hi (by decide)⟩
  | decode | decodeOutOfData =>
    exact ⟨rfl, rfl, rfl, fun hi => absurd rfl hi, fun hi => absurd (by decide) hi, fun _ => ⟨rfl, rfl⟩⟩

/-- Settles O54: a successful read of `k` bits adds `k` to the position, a failing one only clears `R.valid`. -/
theorem bitPositionNeverDecreases : Obligations.BitPositionNeverDecreases := by
  intro i s t h hi
  obtain ⟨-, -, -, -, hreader, -⟩ := operationsTouchOnlyTheirState i s t h
  refine ⟨?_, fun hop => hreader (by simp_all)⟩
  cases completes_of_exec h with
  | read _ _ hr => exact (takeBitsOf_some hr).2.1 ▸ Nat.le_add_right ..
  | readOutOfData => exact Nat.le_refl _
  | reservedWidth | bitw | encode | encodeError => exact Nat.le_refl _
  | write hw => simp
  | rinit => exact absurd (by decide) hi
  | decode | decodeOutOfData => exact absurd (by decide) hi

/-! ## The completion record (R26) -/

/-- Settles O51, rule by rule: only `BITW` and a successful read deliver a value, and both complete `OK`. -/
theorem completionValueRule : Obligations.CompletionValueRule := by
  intro i s t h
  cases completes_of_exec h with
  | bitw value s =>
    refine ⟨fun hs => absurd rfl hs, fun hi => absurd (by simp [opOf]) hi, fun _ => ?_⟩
    exact (toNat_ofNat_bitWidth value).trans_le (bitWidth_le value)
  | read hr =>
    refine ⟨fun hs => absurd rfl hs, fun hi => ?_, fun hi => ?_⟩ <;>
      rcases opOf_of_reads hr with hop | hop <;> simp [hop] at hi
  | reservedWidth | write | rinit | readOutOfData | encode | encodeError | decode | decodeOutOfData =>
    exact ⟨fun _ => rfl, fun _ => rfl, fun _ => Nat.zero_le _⟩

/-! ## `R.cur` of an aligned reader (R23, U7) -/

/-- The state with another `R.cur`. -/
def withCur (s : State) (c : Byte) : State := { s with reader := { s.reader with cur := c } }

/-- `t'` is `t` but for `R.cur`, and has the same `R.cur` too where it has a meaning. -/
def AgreeButCur (t t' : State) : Prop :=
  withCur t' t.reader.cur = t ∧ (t.reader.off ≠ 0 → t'.reader.cur = t.reader.cur)

theorem agreeButCur_refl (t : State) : AgreeButCur t t := ⟨rfl, fun _ => rfl⟩

/-- On an aligned reader any `R.cur` will do. -/
theorem agreeButCur_of_eq {t t' : State} (c : Byte) (ht : t' = withCur t c) (h : t.reader.off = 0) :
    AgreeButCur t t' :=
  ⟨by rw [ht]; rfl, fun h' => absurd h h'⟩

theorem writerAt_withCur (s : State) (c : Byte) (sel : WSel) : writerAt (withCur s c) sel = writerAt s sel := by
  cases sel <;> rfl

theorem setWriter_withCur (s : State) (c : Byte) (sel : WSel) (w : BitWriter) :
    setWriter (withCur s c) sel w = withCur (setWriter s sel w) c := by
  cases sel <;> rfl

/-- The writer's operations look at the state through `W[s]` only. -/
theorem writes_congr {s s' : State} (h : ∀ sel, writerAt s' sel = writerAt s sel) {i : Instr} {sel : WSel}
    {w : BitWriter} (hw : Writes s i sel w) : Writes s' i sel w := by
  cases hw with
  | winit => exact .winit sel
  | append hw hf => rw [← h]; exact .append hw (by rwa [h])
  | appendd hw hf => rw [← h]; exact .appendd hw (by rwa [h])
  | finish hf => rw [← h]; exact .finish (by rwa [h])

/-- At a byte's first bit `R.cur` is fetched, not read (R141). -/
theorem takeBit_cur_of_aligned (inp : List Byte) {r : BitReader} (h : r.off = 0) (c : Byte) :
    takeBit inp { r with cur := c } = takeBit inp r := by
  simp [takeBit, h]

/-- So a read of at least one bit does not depend on it. -/
theorem takeBitsOf_cur_of_aligned (inp : List Byte) {r : BitReader} (h : r.off = 0) (c : Byte) {k : Nat} (hk : k ≠ 0) :
    takeBitsOf inp { r with cur := c } k = takeBitsOf inp r k := by
  obtain ⟨n, rfl⟩ := Nat.exists_eq_succ_of_ne_zero hk
  simp only [takeBitsOf, takeLoop, takeBit_cur_of_aligned inp h c]
  rfl

theorem takeBitsOf_cur_eq_none (inp : List Byte) (r : BitReader) (c : Byte) (k : Nat) :
    takeBitsOf inp { r with cur := c } k = none ↔ takeBitsOf inp r k = none := by
  rw [takeBitsOf_eq_none, takeBitsOf_eq_none]
  rfl

/-- Each rule applies with another `R.cur` too. -/
theorem completes_withCur {i : Instr} {s t : State} (h : Completes i s t) (hoff : s.reader.off = 0) (c : Byte) :
    ∃ t', Completes i (withCur s c) t' ∧ AgreeButCur t t' := by
  cases h with
  | reservedWidth hi => exact ⟨_, .reservedWidth hi, agreeButCur_of_eq c rfl hoff⟩
  | bitw value s => exact ⟨_, .bitw value _, agreeButCur_of_eq c rfl hoff⟩
  | write hw =>
    refine ⟨_, .write (writes_congr (writerAt_withCur s c) hw), ?_⟩
    exact agreeButCur_of_eq c (by rw [setWriter_withCur]; rfl) (by simpa using hoff)
  | rinit s => exact ⟨_, .rinit _, agreeButCur_refl _⟩
  | @read _ _ k v _ r hi hv hr =>
    by_cases hk : k = 0
    · subst hk
      obtain ⟨rfl, rfl⟩ : 0 = v ∧ s.reader = r := by simpa using hr
      exact ⟨_, .read hi hv (takeBitsOf_zero ..), agreeButCur_of_eq c rfl hoff⟩
    · exact ⟨_, .read hi hv ((takeBitsOf_cur_of_aligned s.inp hoff c hk).trans hr), agreeButCur_refl _⟩
  | readOutOfData hi hv hr =>
    exact ⟨_, .readOutOfData hi hv ((takeBitsOf_cur_eq_none ..).2 hr), agreeButCur_of_eq c rfl hoff⟩
  | encode hfw hw => exact ⟨_, .encode hfw hw, agreeButCur_of_eq c rfl hoff⟩
  | encodeError hfw hc => exact ⟨_, .encodeError hfw hc, agreeButCur_of_eq c rfl hoff⟩
  | decode hfw hr => exact ⟨_, .decode hfw hr, agreeButCur_refl _⟩
  | decodeOutOfData hfw hr => exact ⟨_, .decodeOutOfData hfw hr, agreeButCur_refl _⟩

/-- Settles O55: the rule that gave `t` applies with the other `R.cur` too. -/
theorem currentByteIsUnreadWhenAligned : Obligations.CurrentByteIsUnreadWhenAligned := by
  intro i s t c hoff h
  obtain ⟨t', ht', hagree⟩ := completes_withCur (exec_next_iff.1 h) hoff c
  exact ⟨t', exec_next_iff.2 ht', hagree⟩

/-! ## The invariants (R21, R23, R26, R86) -/

/-- WI, and an empty cursor on a finished writer. -/
def WriterSound (w : BitWriter) : Prop := WriterInv w ∧ FinishedInv w

theorem engineInv_iff {s : State} :
    EngineInv s ↔ (WriterSound s.w0 ∧ WriterSound s.w1) ∧ (s.reader.valid = true → ReaderInv s.inp s.reader) ∧
      CompletionInv s.cr :=
  ⟨fun ⟨h0, h1, f0, f1, hr, hc⟩ => ⟨⟨⟨h0, f0⟩, h1, f1⟩, hr, hc⟩,
    fun ⟨⟨⟨h0, f0⟩, h1, f1⟩, hr, hc⟩ => ⟨h0, h1, f0, f1, hr, hc⟩⟩

theorem finishedInv_of_open {w : BitWriter} (h : w.fin = false) : FinishedInv w := by
  simp [FinishedInv, h]

theorem writerSound_initWriter : WriterSound initWriter := ⟨writerInv_initWriter, finishedInv_of_open rfl⟩

theorem writerSound_finishOf (w : BitWriter) : WriterSound (finishOf w) :=
  ⟨writerInv_finishOf w, finishedInv_finishOf w⟩

/-- An append keeps an open writer open. -/
theorem writerSound_appendBitsOf {w : BitWriter} (h : WriterSound w) (hf : w.fin = false) (x : Word) (k : Nat) :
    WriterSound (appendBitsOf w x k) :=
  ⟨writerInv_appendBitsOf h.1 x k, finishedInv_of_open (by rw [appendBitsOf_fin, hf])⟩

theorem writerSound_of_writes {s : State} {i : Instr} {sel : WSel} {w : BitWriter} (hw : Writes s i sel w)
    (h : WriterSound (writerAt s sel)) : WriterSound w := by
  cases hw with
  | winit => exact writerSound_initWriter
  | append _ hf => exact writerSound_appendBitsOf h hf ..
  | appendd _ hf => exact writerSound_appendBitsOf h hf ..
  | finish => exact writerSound_finishOf _

theorem completionInv_ok (v : Word) : CompletionInv { status := 0#4, value := v } :=
  ⟨by simp, fun h => absurd rfl h⟩

theorem completionInv_error {c : BitVec 4} (h : c ∈ [1#4, 2#4, 3#4, 4#4, 15#4]) :
    CompletionInv { status := c, value := 0#32 } :=
  ⟨List.mem_cons_of_mem _ h, fun _ => rfl⟩

/-- Every operation keeps the invariants. -/
theorem engineInv_of_completes {i : Instr} {s t : State} (h : Completes i s t) (hs : EngineInv s) : EngineInv t := by
  rw [engineInv_iff] at hs ⊢
  obtain ⟨⟨h0, h1⟩, hr, -⟩ := hs
  cases h with
  | reservedWidth => exact ⟨⟨h0, h1⟩, hr, completionInv_error (by simp)⟩
  | bitw => exact ⟨⟨h0, h1⟩, hr, completionInv_ok _⟩
  | @write _ _ sel w hw =>
    have hw : WriterSound w := writerSound_of_writes hw (by cases sel; exacts [h0, h1])
    exact ⟨setWriter_forall s sel w h0 h1 hw, by simpa using hr, completionInv_ok _⟩
  | rinit => exact ⟨⟨h0, h1⟩, fun _ => readerInv_initReader _, completionInv_ok _⟩
  | read _ hv htake => exact ⟨⟨h0, h1⟩, fun _ => readerInv_takeBitsOf (hr hv) htake, completionInv_ok _⟩
  | readOutOfData => exact ⟨⟨h0, h1⟩, nofun, completionInv_error (by simp)⟩
  | encode _ hw =>
    obtain ⟨⟨w, rfl⟩, -⟩ := encodeBody_ok hw
    exact ⟨⟨writerSound_finishOf w, writerSound_initWriter⟩, hr, completionInv_ok _⟩
  | @encodeError _ c _ hc =>
    have hstatus : c ∈ [1#4, 2#4, 3#4, 4#4, 15#4] := by
      rcases encodeBody_error hc with h | h | h <;> cases h <;> simp
    exact ⟨⟨writerSound_initWriter, writerSound_initWriter⟩, hr, completionInv_error hstatus⟩
  | decode => exact ⟨⟨h0, h1⟩, nofun, completionInv_ok _⟩
  | decodeOutOfData => exact ⟨⟨h0, h1⟩, nofun, completionInv_error (by simp)⟩

/-- Settles O49: both writers are as after `WINIT`, and the reader is not valid. -/
theorem resetSatisfiesEngineInv : Obligations.ResetSatisfiesEngineInv :=
  engineInv_iff.2 ⟨⟨writerSound_initWriter, writerSound_initWriter⟩, nofun, completionInv_ok _⟩

/-- Settles O48: by the host action the step performs. -/
theorem stepKeepsEngineInv : Obligations.StepKeepsEngineInv := by
  intro s t hs h
  have ⟨h0, h1, f0, f1, hr, hc⟩ := hs
  obtain ⟨a, rest, -, ⟨c, i, -, -, h⟩ | ⟨c, e, -, -, rfl⟩ | ⟨xs, -, -, rfl⟩ | ⟨xs, -, -, rfl⟩ | ⟨xs, -, -, rfl⟩ |
    ⟨-, rfl⟩⟩ := engineStep_next h
  · exact engineInv_of_completes (completes_of_exec h) (s := { s with pending := rest }) hs
  · exact ⟨h0, h1, f0, f1, hr, completionInv_error (by simp)⟩
  · exact hs
  · exact hs
  · exact ⟨h0, h1, f0, f1, nofun, hc⟩
  · exact resetSatisfiesEngineInv

/-! ## Reset and the host's accesses (R33, R34, R230) -/

/-- Settles O10: field by field. -/
theorem resetValues : Obligations.ResetValues := ⟨rfl, rfl, rfl, rfl, rfl, rfl, rfl⟩

/-- A step performs the first pending action (R242). -/
theorem step_of_pending {s : State} {a : HostAction} {rest : List HostAction} (h : s.pending = a :: rest) :
    step s = performAction Config.params exec a { s with pending := rest } := by
  rw [step, engineStep, h]

/-- Settles O9: under unbounded capacities no replacement is refused. -/
theorem hostActsBetweenOperations : Obligations.HostActsBetweenOperations :=
  fun _ _ => ⟨fun _ h => step_of_pending h, fun _ h => step_of_pending h, fun _ h => step_of_pending h,
    step_of_pending, step_of_pending, step_of_pending⟩

end Sys2Proof.Machine
end

section
/-! PROOFS. The stores (20_memory.md): one action per step (R56), append-only buffers (R57), and capacities that only ever
refuse (R59). -/

namespace Sys2Proof.Machine

open Sys2Proof

/-! ## One action per step (R56, R242) -/

/-- Part of the frame of every operation (O50). -/
theorem exec_pending {i : Instr} {s t : State} (h : exec i s = .next t) : t.pending = s.pending :=
  have ⟨_, _, hpending, _⟩ := operationsTouchOnlyTheirState i s t h
  hpending

/-- Settles O11: the step takes the first action off the list, and nothing it performs touches the rest. -/
theorem stepPerformsOneAction : Obligations.StepPerformsOneAction := by
  intro s t h
  obtain ⟨a, rest, hp, hstep⟩ := engineStep_next h
  suffices ht : t.pending = rest from ⟨a, by rw [ht, hp]⟩
  obtain ⟨c, i, -, -, hexec⟩ | ⟨c, e, -, -, rfl⟩ | ⟨xs, -, -, rfl⟩ | ⟨xs, -, -, rfl⟩ | ⟨xs, -, -, rfl⟩ | ⟨-, rfl⟩ := hstep
  · exact exec_pending hexec
  all_goals rfl

/-! ## Append-only buffers (R57) -/

/-- Only `WINIT` replaces a buffer; the other writer operations extend it. -/
theorem buf_prefix_of_writes {s : State} {i : Instr} {sel : WSel} {w : BitWriter} (hw : Writes s i sel w)
    (hi : opOf i ≠ .winit) : (writerAt s sel).buf <+: w.buf := by
  cases hw with
  | winit => exact absurd rfl hi
  | append => exact appendBitsOf_buf_prefix ..
  | appendd => exact appendBitsOf_buf_prefix ..
  | finish => exact finishOf_buf_prefix _

/-- Settles O25: the written context's buffer is extended, the other context is left alone. -/
theorem pushedBytesStay : Obligations.PushedBytesStay := by
  intro i s t sel hi h
  cases completes_of_exec h with
  | reservedWidth => simp
  | @write _ _ sel' w hw =>
    rw [writerAt_complete]
    by_cases hsel : sel = sel'
    · subst hsel
      rw [writerAt_setWriter_same]
      exact buf_prefix_of_writes hw (by intro hop; simp [hop] at hi)
    · rw [writerAt_setWriter_other _ _ _ hsel]
  | read hr | readOutOfData hr => rcases opOf_of_reads hr with hop | hop <;> simp [hop] at hi
  | bitw | rinit | encode | encodeError | decode | decodeOutOfData => simp [opOf] at hi

/-! ## A capacity refuses or changes nothing (R59) -/

theorem runCommand_same (p : Params) (c : Command) (s : State) :
    SameOrRefused (runCommand (execWith p) c s) (runCommand (execWith (unbounded p)) c s) := by
  unfold runCommand
  split
  · exact execWith_same ..
  · exact .inl rfl

/-- A store write of the host: the test of its capacity, then the write (R59). -/
theorem exceeds_same (cap : Option Nat) (n : Nat) (t : State) :
    SameOrRefused (if exceeds cap n then .refused .capacityExceeded else .next t) (.next t) := by
  split
  · exact .inr rfl
  · exact .inl rfl

theorem performAction_same (p : Params) (a : HostAction) (s : State) :
    SameOrRefused (performAction p (execWith p) a s)
      (performAction (unbounded p) (execWith (unbounded p)) a s) := by
  cases a with
  | command c => exact runCommand_same p c s
  | setFw | setVal | setIn | copyIn => exact exceeds_same ..
  | reset => exact .inl rfl

theorem stepWith_same (p : Params) (s : State) : SameOrRefused (stepWith p s) (stepWith (unbounded p) s) := by
  unfold stepWith engineStep
  split
  · exact .inl rfl
  · exact performAction_same ..

/-! ## Every step keeps every store within its capacity (R59) -/

section
variable {p : Params} {s t : State}

theorem withinCapacity_setWriter (hs : WithinCapacity p s) (sel : WSel) {w : BitWriter}
    (hw : ∀ c ∈ p.capBuf, w.buf.length ≤ c) : WithinCapacity p (setWriter s sel w) := by
  obtain ⟨hbuf, hn⟩ := hs
  cases sel with
  | w0 => exact ⟨fun c hc => ⟨hw c hc, (hbuf c hc).2⟩, hn⟩
  | w1 => exact ⟨fun c hc => ⟨(hbuf c hc).1, hw c hc, (hbuf c hc).2.2⟩, hn⟩

/-- Both writers replaced, as `ENCODE` leaves them (R162, R163). -/
theorem withinCapacity_encoded (hs : WithinCapacity p s) {w : BitWriter} (hw : ∀ c ∈ p.capBuf, w.buf.length ≤ c) :
    WithinCapacity p { s with w0 := w, w1 := initWriter } :=
  withinCapacity_setWriter (withinCapacity_setWriter hs .w0 hw) .w1 fun _ _ => Nat.zero_le _

/-- A replacement of `VAL`, by the host or by `DECODE`. -/
theorem withinCapacity_val (hs : WithinCapacity p s) {xs : List Word} (hx : ∀ c ∈ p.capN, xs.length ≤ c) :
    WithinCapacity p { s with val := xs } :=
  ⟨hs.1, fun c hc => ⟨(hs.2 c hc).1, hx c hc⟩⟩

theorem withinCapacity_fw (hs : WithinCapacity p s) {xs : List Byte} (hx : ∀ c ∈ p.capN, xs.length ≤ c) :
    WithinCapacity p { s with fw := xs } :=
  ⟨hs.1, fun c hc => ⟨hx c hc, (hs.2 c hc).2⟩⟩

theorem withinCapacity_inp (hs : WithinCapacity p s) {xs : List Byte} (hx : ∀ c ∈ p.capBuf, xs.length ≤ c) :
    WithinCapacity p { s with inp := xs } :=
  ⟨fun c hc => ⟨(hs.1 c hc).1, (hs.1 c hc).2.1, hx c hc⟩, hs.2⟩

theorem withinCapacity_reset (p : Params) (rest : List HostAction) :
    WithinCapacity p { State.reset with pending := rest } :=
  ⟨fun _ _ => ⟨Nat.zero_le _, Nat.zero_le _, Nat.zero_le _⟩, fun _ _ => ⟨Nat.zero_le _, Nat.zero_le _⟩⟩

/-- An operation that completes tested the store it wrote, or emptied it, or wrote none; `CR` and `R` have no capacity. -/
theorem withinCapacity_of_execWith {i : Instr} (hs : WithinCapacity p s) (h : execWith p i s = .next t) :
    WithinCapacity p t := by
  cases i with
  | bitw => cases h; exact hs
  | winit sel => cases h; exact withinCapacity_setWriter hs sel fun _ _ => Nat.zero_le _
  | append sel value width =>
    obtain ⟨-, rfl⟩ | ⟨-, -, rfl, hw⟩ := execAppendWith_next h
    · exact hs
    · exact withinCapacity_setWriter hs sel hw
  | appendd sel value width =>
    obtain ⟨-, rfl⟩ | ⟨-, -, rfl, hw⟩ := execAppenddWith_next h
    · exact hs
    · exact withinCapacity_setWriter hs sel hw
  | finish sel =>
    obtain ⟨-, rfl, hw⟩ := execFinishWith_next h
    exact withinCapacity_setWriter hs sel hw
  | rinit => cases h; exact hs
  | take width =>
    obtain ⟨-, rfl⟩ | ⟨-, -, ⟨-, rfl⟩ | ⟨v, r, -, rfl⟩⟩ := execTake_next h <;> exact hs
  | takei width =>
    obtain ⟨-, rfl⟩ | ⟨-, -, ⟨-, rfl⟩ | ⟨-, -, rfl⟩ | ⟨-, v, r, -, rfl⟩⟩ := execTakei_next h <;> exact hs
  | encode =>
    obtain ⟨-, c, -, rfl⟩ | ⟨-, ⟨w, hw, rfl⟩ | ⟨c, -, rfl⟩⟩ := execEncodeWith_next h
    · exact withinCapacity_encoded hs fun _ _ => Nat.zero_le _
    · exact withinCapacity_encoded hs (encodeBody_ok hw).2.2
    · exact withinCapacity_encoded hs fun _ _ => Nat.zero_le _
  | decode =>
    obtain ⟨-, c, -, rfl⟩ | ⟨-, ⟨xs, r, -, hx, rfl⟩ | ⟨r, -, rfl⟩ | ⟨r, c, -, -, rfl⟩⟩ := execDecodeWith_next h
    · exact withinCapacity_val hs fun _ _ => Nat.zero_le _
    · exact withinCapacity_val hs hx
    · exact withinCapacity_val hs fun _ _ => Nat.zero_le _
    · exact withinCapacity_val hs fun _ _ => Nat.zero_le _

theorem withinCapacity_of_stepWith (hs : WithinCapacity p s) (h : stepWith p s = .next t) : WithinCapacity p t := by
  obtain ⟨a, rest, -, ⟨c, i, -, -, hexec⟩ | ⟨c, e, -, -, rfl⟩ | ⟨xs, -, hx, rfl⟩ | ⟨xs, -, hx, rfl⟩ |
    ⟨xs, -, hx, rfl⟩ | ⟨-, rfl⟩⟩ := engineStep_next h
  · exact withinCapacity_of_execWith (s := { s with pending := rest }) hs hexec
  · exact hs
  · exact withinCapacity_fw hs hx
  · exact withinCapacity_val hs hx
  · exact withinCapacity_inp hs hx
  · exact withinCapacity_reset p rest

end

/-- Settles O58: the step was not refused, so it is the unbounded one. -/
theorem capacitiesOnlyRefuse : Obligations.CapacitiesOnlyRefuse := by
  intro p s t hs h
  refine ⟨?_, withinCapacity_of_stepWith hs h⟩
  obtain hsame | hrefused := stepWith_same p s
  · exact hsame.symm.trans h
  · rw [hrefused] at h; cases h

/-- Settles O59: a step that answered what the unbounded one does would stay within the capacities. -/
theorem exceedingCapacityIsRefused : Obligations.ExceedingCapacityIsRefused := by
  intro p s t hs hfree hexceeds
  obtain hsame | hrefused := stepWith_same p s
  · exact absurd (withinCapacity_of_stepWith hs (hsame.trans hfree)) hexceeds
  · exact hrefused

end Sys2Proof.Machine
end

section
/-! PROOFS. Command words (30_encoding.md Part A): the decoder and the encoder are inverse to each other on the well-formed
operations, a word selects a row of R82 by its mask, and every other word is illegal. -/

namespace Sys2Proof

/-! ## A row and a word that selects it (R82, R83) -/

@[simp] theorem opOf_assemble (o : Op) (c : Command) : opOf (assemble o c) = o := by
  cases o <;> rfl

/-- R85: an operation taken from a word is well-formed when the width its row uses is. -/
theorem wellFormed_assemble {o : Op} {c : Command} :
    (assemble o c).wellFormed = true ↔ (usesWidth o = true → (fieldWidth c).toNat ≤ 32) := by
  cases o <;> simp [assemble, usesWidth, Instr.wellFormed]

/-- A word that selects a row, with a legal width where the row uses one, passes the tests of R83. -/
theorem decode_of_selects {c : Command} {o : Op} (h : c &&& rowMask o = rowMatch o)
    (hw : usesWidth o = true → (fieldWidth c).toNat ≤ 32) : decode c = .ok (assemble o c) := by
  obtain ⟨-, -, hop⟩ := selects_reserved h
  have hwidth : ¬ (usesWidth o && decide (32 < (fieldWidth c).toNat)) = true := by simpa using hw
  rw [decode, hop, opOfByte_opcode]
  simp only
  rw [if_neg (not_not.2 h), if_neg hwidth]

/-- Settles O3: the row of the operation that a word decodes to is the row it selects. -/
theorem decodeFollowsOpcodeMap : Obligations.DecodeFollowsOpcodeMap := by
  intro c o
  refine ⟨fun h => ?_, fun ⟨hsel, hw⟩ => decode_of_selects hsel hw⟩
  obtain ⟨o', hsel, hw, heq⟩ := decode_ok_cases h
  obtain rfl : o = o' := by simpa using congrArg opOf heq
  exact ⟨hsel, hw⟩

/-- Settles O5: a word that decodes selects a row, and every mask covers `z1` and `z0`. -/
theorem reservedFieldsAreIllegal : Obligations.ReservedFieldsAreIllegal := by
  intro c hz i h
  obtain ⟨o, hsel, -, -⟩ := decode_ok_cases h
  obtain ⟨h1, h0, -⟩ := selects_reserved hsel
  exact hz.elim (absurd h1) (absurd h0)

/-! ## Encoding (R80, R87) -/

/-- The word of an operation selects the operation's row: its unused fields are 0. -/
theorem encode_selects (i : Instr) : encode i &&& rowMask (opOf i) = rowMatch (opOf i) := by
  cases i <;> exact (packWord_selects ..).2 (by simp [opOf, opcode, usesWidth])

/-- The operands stand in the fields that the row takes them from (R81). -/
theorem assemble_encode (i : Instr) : assemble (opOf i) (encode i) = i := by
  cases i <;> simp [opOf, assemble, encode]

/-- A word that selects a row is the word of the operation it stands for: the fields the row does not use are 0. -/
theorem encode_assemble {c : Command} {o : Op} (h : c &&& rowMask o = rowMatch o) : encode (assemble o c) = c := by
  obtain ⟨h1, h0, -⟩ := selects_reserved h
  have hc := packWord_fields h1 h0
  rw [← hc, packWord_selects] at h
  obtain ⟨hop, hs, hwidth, hvalue⟩ := h
  refine Eq.trans ?_ hc
  cases o <;> simp_all [assemble, encode, opcode, usesWidth]

/-- Settles O1: the word selects the operation's row, and its fields give the operands back. -/
theorem decodeOfEncode : Obligations.DecodeOfEncode := by
  intro i hi
  rw [← assemble_encode i, wellFormed_assemble] at hi
  rw [decode_of_selects (encode_selects i) hi, assemble_encode]

/-- Settles O2: the row that the word selects gives it its one meaning. -/
theorem encodeOfDecode : Obligations.EncodeOfDecode := by
  intro c i h
  obtain ⟨o, hsel, hw, rfl⟩ := decode_ok_cases h
  exact ⟨wellFormed_assemble.2 hw, encode_assemble hsel⟩

/-- Settles O4: word by word. -/
theorem sampleWordsDecode : Obligations.SampleWordsDecode := by
  unfold Obligations.SampleWordsDecode
  decide

end Sys2Proof
end

section
/-! PROOFS. One step on a command word: it runs the operation that the word decodes to, or completes `Illegal` (R83 to R85,
R206). -/

namespace Sys2Proof.Machine

open Sys2Proof

section
variable {s : State} {c : Command} {rest : List HostAction}

theorem step_of_decode_ok {i : Instr} (hp : s.pending = .command c :: rest) (hc : decode c = .ok i) :
    step s = exec i { s with pending := rest } := by
  rw [step_of_pending hp, performAction, runCommand, hc]

theorem step_of_decode_error {e : IllegalReason} (hp : s.pending = .command c :: rest) (hc : decode c = .error e) :
    step s = .next (complete 15#4 0#32 { s with pending := rest }) := by
  rw [step_of_pending hp, performAction, runCommand, hc]
  rfl

/-- A word that decodes to no operation completes `(Illegal, 0)`. -/
theorem step_of_illegal (hp : s.pending = .command c :: rest) (hc : ∀ i, decode c ≠ .ok i) :
    step s = .next (complete 15#4 0#32 { s with pending := rest }) := by
  cases h : decode c with
  | ok i => exact absurd h (hc i)
  | error e => exact step_of_decode_error hp h

end

/-- Settles O6: the step performs the command, and the command runs what it decodes to. -/
theorem stepRunsDecodedOperation : Obligations.StepRunsDecodedOperation :=
  fun _ _ _ _ hp hc => step_of_decode_ok hp hc

/-- The rows with these opcodes are those that use `width`. -/
theorem usesWidth_of_opcode_mem {o : Op} (h : opcode o ∈ [0x11#8, 0x12#8, 0x21#8, 0x22#8]) : usesWidth o = true := by
  revert h
  cases o <;> decide

/-- Settles O8: the word would select a row that uses `width`, and those admit no width above 32. -/
theorem reservedWidthIsIllegal : Obligations.ReservedWidthIsIllegal := by
  intro s c rest hp hop hwide
  refine step_of_illegal hp fun i h => ?_
  obtain ⟨o, hsel, hw, -⟩ := decode_ok_cases h
  obtain ⟨-, -, hfield⟩ := selects_reserved hsel
  have := hw (usesWidth_of_opcode_mem (hfield ▸ hop))
  omega

end Sys2Proof.Machine
end

section
/-! PROOFS. The encoded buffer (30_encoding.md Part B) as `ENCODE` writes it, the largest value per field width (R95), and
the completion statuses (R86). -/

namespace Sys2Proof.Machine

open Sys2Proof

/-- R90: a stream of all specifiers and all payloads has `S_n + P_n` bits. -/
theorem contentLength_of_format {w : BitWriter} {fw : List Byte} {vs : List Word} (hl : fw.length = vs.length)
    (h : content w = specStream fw vs ++ payStream vs) :
    contentLength w = widthSum fw + payloadSum (vs.map bitWidth) := by
  rw [← content_length, h, List.length_append, specStream_length hl, payStream_length]

/-- Settles O35: the finished writer's buffer is its content and the pad, and the content is both streams. -/
theorem encodeWritesTheFormat : Obligations.EncodeWritesTheFormat := by
  intro s ⟨hwide, hl, hfits⟩
  obtain ⟨w, hbody, hcontent, hinv, -⟩ := encodeBody_fits hl hfits
  have hlength := contentLength_of_format hl hcontent
  refine ⟨(finishOf w).buf, exec_of_completes (.encode (anyWide_eq_false.2 hwide) hbody), ?_, ?_⟩
  · rw [bytesBits_finishOf hinv, hcontent, hlength]
  · rw [finishOf_buf_length, hlength]

/-- A field of width `w` admits the values below `2^(2^w − 1)` (R95). -/
theorem bitWidth_le_field_iff {v : Word} {w : Nat} : bitWidth v ≤ 2 ^ w - 1 ↔ v.toNat ≤ 2 ^ (2 ^ w - 1) - 1 := by
  have := Nat.two_pow_pos (2 ^ w - 1)
  rw [bitWidth_le_iff]
  omega

/-- A field of width 6 or more admits every value (R95). -/
theorem bitWidth_le_field_of_six_le {v : Word} {w : Nat} (h : 6 ≤ w) : bitWidth v ≤ 2 ^ w - 1 := by
  have hv := bitWidth_le v
  have hw : 2 ^ 6 ≤ 2 ^ w := Nat.pow_le_pow_right (by decide) h
  omega

/-- Settles O41: below width 6 the bound is the table's entry, from there on every value is admitted. -/
theorem largestValuePerWidth : Obligations.LargestValuePerWidth := by
  intro w v h1 _
  split_ifs with e1 e2 e3 e4 e5
  · subst e1; exact bitWidth_le_field_iff
  · subst e2; exact bitWidth_le_field_iff
  · subst e3; exact bitWidth_le_field_iff
  · subst e4; exact bitWidth_le_field_iff
  · subst e5; exact bitWidth_le_field_iff
  · simp only [← BitVec.toNat_inj, BitVec.toNat_ofNat] at e1 e2 e3 e4 e5
    exact iff_of_true (bitWidth_le_field_of_six_le (by omega)) (by have := v.isLt; omega)

/-- Settles O52, rule by rule. -/
theorem statusesPerOperation : Obligations.StatusesPerOperation := by
  intro i s t hi h
  cases completes_of_exec h with
  | reservedWidth hi' => simp [hi'] at hi
  | bitw | write | rinit | read | encode | decode => exact .inl rfl
  | encodeError _ hc =>
    refine .inr (.inl ⟨rfl, ?_⟩)
    rcases encodeBody_error hc with h | h | h <;> cases h <;> simp [failEncode]
  | readOutOfData hr =>
    refine .inr (.inr ⟨?_, rfl⟩)
    rcases opOf_of_reads hr with hop | hop <;> simp [hop]
  | decodeOutOfData => exact .inr (.inr ⟨by decide, rfl⟩)

end Sys2Proof.Machine
end

section
/-! PROOFS. The operation `BITW` (40_bitwidth.md): the number it delivers, and the laws of the natural width. -/

namespace Sys2Proof.Machine

open Sys2Proof

/-- `BITW` completes `OK` with the natural width (R110). -/
theorem exec_bitw (value : Word) (s : State) :
    exec (.bitw value) s = .next (complete 0#4 (BitVec.ofNat 32 (bitWidth value)) s) :=
  exec_of_completes (.bitw value s)

/-- The natural width is monotone (R111). -/
theorem bitWidth_mono {a b : Word} (h : a.toNat ≤ b.toNat) : bitWidth a ≤ bitWidth b :=
  bitWidth_le_iff.2 (h.trans_lt (toNat_lt_bitWidth b))

/-- Settles O12: the number is the natural width, which is 0 for the value 0 only. -/
theorem bitwDeliversNaturalWidth : Obligations.BitwDeliversNaturalWidth := by
  intro value s
  refine ⟨bitWidth value, bitWidth_le value, bitWidth_eq_zero.2, fun hv => ?_, exec_bitw value s⟩
  have hn : bitWidth value ≠ 0 := mt bitWidth_eq_zero.1 hv
  exact ⟨bitWidth_pow_le hn, toNat_lt_bitWidth value, Nat.one_le_iff_ne_zero.2 hn⟩

/-- Settles O13: the bounds of one value, the order of two, and what `CR` holds, each from its law. -/
theorem bitwArithmeticLaw : Obligations.BitwArithmeticLaw := by
  refine ⟨fun v => ⟨bitWidth_le v, toNat_lt_bitWidth v, fun hv => ⟨?_, ?_⟩⟩, ?_, ?_⟩
  · exact getLsbD_bitWidth (mt bitWidth_eq_zero.1 hv)
  · exact fun k hk => getLsbD_of_bitWidth_le hk
  · exact fun a b hab => bitWidth_mono hab
  · exact fun v s => ⟨_, exec_bitw v s, rfl, toNat_ofNat_bitWidth v⟩

end Sys2Proof.Machine
end

section
/-! PROOFS. The writer's operations (41_bitwriter.md) as functions of the one context they name: what `WINIT`, `APPEND`, `APPENDD`
and `FINISH` answer under any parameters of R5, and that they use nothing else (R124, R128). -/

namespace Sys2Proof.Machine

open Sys2Proof

/-! ## What a writer operation makes of its context (R121 to R123) -/

/-- What an append of `k` bits makes of the writer `w`; `width` is the operand that R85 tests. -/
def appendResult (cap : Option Nat) (x : Word) (width : Byte) (k : Nat) (w : BitWriter) : Except Stop BitWriter :=
  if legalWidth width = false then .error (.raise (statusCode .illegal))
  else if w.fin then .error (.refuse .appendAfterFinish)
  else appendChecked cap w x k

/-- What `FINISH` makes of the writer `w`. -/
def finishResult (cap : Option Nat) (w : BitWriter) : Except Stop BitWriter :=
  if w.fin then .error (.refuse .finishTwice) else finishChecked cap w

section
variable (p : Params) (sel : WSel) (x : Word) (width : Byte) (s : State)

theorem execAppendWith_eq :
    execAppendWith p sel x width s =
      storeWriter sel s (appendResult p.capBuf x width width.toNat (writerAt s sel)) := by
  unfold execAppendWith appendResult
  split_ifs <;> rfl

theorem execAppenddWith_eq :
    execAppenddWith p sel x width s =
      storeWriter sel s (appendResult p.capBuf x width (width.toNat - 1) (writerAt s sel)) := by
  unfold execAppenddWith appendResult
  split_ifs <;> rfl

theorem execFinishWith_eq :
    execFinishWith p sel s = storeWriter sel s (finishResult p.capBuf (writerAt s sel)) := by
  unfold execFinishWith finishResult
  split_ifs <;> rfl

end

/-- With a legal width only `fin` and the capacity decide. -/
theorem appendResult_legal {width : Byte} (hw : width.toNat ≤ 32) (cap : Option Nat) (x : Word) (k : Nat) (w : BitWriter) :
    appendResult cap x width k w =
      if w.fin then .error (.refuse .appendAfterFinish) else appendChecked cap w x k := by
  rw [appendResult, legalWidth_iff.2 hw]
  rfl

theorem toNat_ofNat_width {k : Nat} (hk : k ≤ 32) : (BitVec.ofNat 8 k).toNat = k :=
  Nat.mod_eq_of_lt (by omega)

/-- `APPEND` of `k` bits under the default parameters, refusal included. -/
theorem exec_append_legal {k : Nat} (hk : k ≤ 32) (sel : WSel) (x : Word) (s : State) :
    exec (.append sel x (BitVec.ofNat 8 k)) s = storeWriter sel s
      (if (writerAt s sel).fin then .error (.refuse .appendAfterFinish) else .ok (appendBitsOf (writerAt s sel) x k)) := by
  have hwidth := toNat_ofNat_width hk
  rw [exec, execAppend, execAppendWith_eq, appendResult_legal (by omega), hwidth]
  rfl

/-- Settles O18: both test the same writer and append the same bits. -/
theorem appenddIsAppendOfOneLess : Obligations.AppenddIsAppendOfOneLess := by
  intro sel value width s hw
  rw [exec_append_legal (by omega), exec, execAppendd, execAppenddWith_eq, appendResult_legal hw]
  rfl

/-! ## The outcomes (R124) -/

/-- The outcomes that R124 admits for the operation `i` in the state `s`. -/
def WriterOutcome (i : Instr) (s : State) (o : Host.Outcome State Fault Refusal) : Prop :=
  (∃ t, o = .next t ∧ t.cr = { status := 0#4, value := 0#32 }) ∨
  (i.wellFormed = false ∧ o = .next { s with cr := { status := 15#4, value := 0#32 } }) ∨
  (∃ r ∈ [Refusal.appendAfterFinish, .finishTwice, .capacityExceeded], o = .refused r)

section
variable {i : Instr} {s : State}

theorem writerOutcome_ok (sel : WSel) (w : BitWriter) : WriterOutcome i s (storeWriter sel s (.ok w)) :=
  .inl ⟨_, rfl, rfl⟩

theorem writerOutcome_refuse (sel : WSel) {r : Refusal}
    (hr : r ∈ [Refusal.appendAfterFinish, .finishTwice, .capacityExceeded]) :
    WriterOutcome i s (storeWriter sel s (.error (.refuse r))) :=
  .inr (.inr ⟨r, hr, rfl⟩)

theorem writerOutcome_withinCap (sel : WSel) (cap : Option Nat) (w : BitWriter) :
    WriterOutcome i s (storeWriter sel s (withinCap cap w)) := by
  rcases withinCap_same cap w with h | h <;> rw [h]
  · exact writerOutcome_ok sel w
  · exact writerOutcome_refuse sel (by simp)

/-- `Illegal` is the outcome of an ill-formed term only (R84, R85). -/
theorem writerOutcome_appendResult {width : Byte} (hi : i.wellFormed = legalWidth width) (sel : WSel) (cap : Option Nat)
    (x : Word) (k : Nat) (w : BitWriter) : WriterOutcome i s (storeWriter sel s (appendResult cap x width k w)) := by
  unfold appendResult
  split_ifs with hw hf
  · exact .inr (.inl ⟨hi.trans hw, rfl⟩)
  · exact writerOutcome_refuse sel (by simp)
  · exact writerOutcome_withinCap sel cap _

theorem writerOutcome_finishResult (sel : WSel) (cap : Option Nat) (w : BitWriter) :
    WriterOutcome i s (storeWriter sel s (finishResult cap w)) := by
  unfold finishResult
  split_ifs with hf
  · exact writerOutcome_refuse sel (by simp)
  · exact writerOutcome_withinCap sel cap _

end

/-- Settles O22, operation by operation. -/
theorem writerRaisesNoError : Obligations.WriterRaisesNoError := by
  intro p i s hi
  change WriterOutcome i s (execWith p i s)
  cases i with
  | winit sel => exact writerOutcome_ok sel initWriter
  | append sel value width =>
    rw [execWith, execAppendWith_eq]
    exact writerOutcome_appendResult rfl ..
  | appendd sel value width =>
    rw [execWith, execAppenddWith_eq]
    exact writerOutcome_appendResult rfl ..
  | finish sel =>
    rw [execWith, execFinishWith_eq]
    exact writerOutcome_finishResult ..
  | bitw | rinit | take | takei | encode | decode => simp [opOf] at hi

/-! ## The two contexts (R128) -/

/-- `i` stores in the context `sel` what it makes of that context, and uses nothing else of the state. -/
def LocalTo (sel : WSel) (i : Instr) : Prop :=
  ∃ f : BitWriter → Except Stop BitWriter, ∀ s, exec i s = storeWriter sel s (f (writerAt s sel))

theorem localTo_winit (sel : WSel) : LocalTo sel (.winit sel) := ⟨fun _ => .ok initWriter, fun _ => rfl⟩

theorem localTo_append (sel : WSel) (x : Word) (width : Byte) : LocalTo sel (.append sel x width) :=
  ⟨_, execAppendWith_eq Config.params sel x width⟩

theorem localTo_appendd (sel : WSel) (x : Word) (width : Byte) : LocalTo sel (.appendd sel x width) :=
  ⟨_, execAppenddWith_eq Config.params sel x width⟩

theorem localTo_finish (sel : WSel) : LocalTo sel (.finish sel) := ⟨_, execFinishWith_eq Config.params sel⟩

section
variable {sel : WSel} {s t : State} {r : Except Stop BitWriter}

/-- Storing a writer leaves the other context and all but `CR` as they were. -/
theorem storeWriter_frame (h : storeWriter sel s r = .next t) {other : WSel} (ho : other ≠ sel) :
    writerAt t other = writerAt s other ∧ t.reader = s.reader ∧ t.fw = s.fw ∧ t.val = s.val ∧ t.inp = s.inp := by
  rcases r with (c | reason) | w
  · cases h; simp
  · cases h
  · cases h; simp [completeOk_eq, writerAt_setWriter_other _ _ _ ho]

/-- What is stored does not depend on the rest of the state. -/
theorem storeWriter_next_congr {s' : State} (hs : writerAt s' sel = writerAt s sel) (h : storeWriter sel s r = .next t) :
    ∃ t', storeWriter sel s' r = .next t' ∧ writerAt t' sel = writerAt t sel ∧ t'.cr = t.cr := by
  rcases r with (c | reason) | w
  · cases h; exact ⟨_, rfl, by simpa using hs, rfl⟩
  · cases h
  · cases h; exact ⟨_, rfl, by simp [completeOk_eq], rfl⟩

theorem storeWriter_refused_congr (s' : State) {reason : Refusal} (h : storeWriter sel s r = .refused reason) :
    storeWriter sel s' r = .refused reason := by
  rcases r with (c | reason') | w
  · cases h
  · cases h; rfl
  · cases h

end

/-- An operation that uses neither context does the same whatever they hold. -/
theorem completes_withWriters {i : Instr} {s t : State} (h : Completes i s t)
    (hi : opOf i ∈ [Op.bitw, .rinit, .take, .takei, .decode]) (u0 u1 : BitWriter) :
    Completes i { s with w0 := u0, w1 := u1 } { t with w0 := u0, w1 := u1 } := by
  cases h with
  | reservedWidth hw => exact .reservedWidth hw
  | bitw value => exact .bitw value _
  | write hw => exact absurd hi (opOf_notMem_of_writes hw)
  | rinit => exact .rinit _
  | read hr hv htake => exact .read hr hv htake
  | readOutOfData hr hv htake => exact .readOutOfData hr hv htake
  | encode | encodeError => exact absurd hi (by decide)
  | decode hfw hr => exact .decode hfw hr
  | decodeOutOfData hfw hr => exact .decodeOutOfData hfw hr

/-- Settles O24: a writer operation is local to its context, and all others but `ENCODE` complete with any two contexts. -/
theorem writerContextsAreIndependent : Obligations.WriterContextsAreIndependent := by
  refine ⟨fun i sel other s hi ho => ?_, fun i s t u0 u1 hi h => ?_⟩
  · have hlocal : LocalTo sel i := by
      rcases hi with rfl | ⟨v, w, rfl⟩ | ⟨v, w, rfl⟩ | rfl
      · exact localTo_winit sel
      · exact localTo_append sel v w
      · exact localTo_appendd sel v w
      · exact localTo_finish sel
    obtain ⟨f, hf⟩ := hlocal
    simp only [hf]
    refine ⟨fun t h => storeWriter_frame h ho, fun s' t hs h => ?_, fun s' r hs h => ?_⟩
    · exact hs ▸ storeWriter_next_congr hs h
    · exact hs ▸ storeWriter_refused_congr s' h
  · obtain ⟨-, -, -, -, -, hwriters⟩ := operationsTouchOnlyTheirState i s t h
    obtain ⟨h0, h1⟩ := hwriters hi
    exact ⟨h0, h1, exec_of_completes (completes_withWriters (completes_of_exec h) hi u0 u1)⟩

end Sys2Proof.Machine
end

section
/-! PROOFS. The stream a writer holds (R22, R125): what each operation makes of the content of an open writer, the closed form of
one append (R126), and runs of appends (R127). -/

namespace Sys2Proof.Machine

open Sys2Proof

/-- The state after a writer operation that completes, as the statements write it. -/
theorem exec_writes_eq {i : Instr} {s : State} {sel : WSel} {w : BitWriter} (h : Writes s i sel w) :
    exec i s = .next (setWriter { s with cr := { status := 0#4, value := 0#32 } } sel w) := by
  rw [exec_of_writes h, complete_setWriter]
  rfl

/-- Settles O14: `WINIT` writes the empty writer, in every state. -/
theorem winitConstructsEmptyWriter : Obligations.WinitConstructsEmptyWriter :=
  fun _ => ⟨exec_writes_eq (.winit .w0), exec_writes_eq (.winit .w1)⟩

/-! ## Appending (R121, R122, R125) -/

/-- R121, R125: `w'` is the open writer `w` extended by the low `k` bits of `x`. -/
def Extends (w : BitWriter) (x k : Nat) (w' : BitWriter) : Prop :=
  content w' = content w ++ natBits x k ∧
  (∃ pushed : List Byte, w'.buf = w.buf ++ pushed ∧ pushed.length = (w.off.val + k) / 8) ∧
  w'.off.val = (w.off.val + k) % 8 ∧ w'.fin = false ∧ WriterInv w'

theorem appendBitsOf_extends {w : BitWriter} (hf : w.fin = false) (hinv : WriterInv w) (x : Word) (k : Nat) :
    Extends w x.toNat k (appendBitsOf w x k) := by
  obtain ⟨hoff, hlength⟩ := appendBitsOf_cursor w x k
  obtain ⟨pushed, hbuf⟩ := appendBitsOf_buf_prefix w x k
  have hpushed : pushed.length = (w.off.val + k) / 8 := by
    rw [← hbuf, List.length_append] at hlength
    omega
  exact ⟨content_appendBitsOf hinv x k, ⟨pushed, hbuf.symm, hpushed⟩, hoff, by rw [appendBitsOf_fin, hf],
    writerInv_appendBitsOf hinv x k⟩

/-- Settles O15: an append on an open writer is the bit-serial procedure. -/
theorem appendExtendsContent : Obligations.AppendExtendsContent :=
  fun _ _ _ _ hw hf hinv => ⟨_, exec_writes_eq (.append hw hf), appendBitsOf_extends hf hinv _ _⟩

/-- Settles O16: the same procedure with one bit less, and none for width 0. -/
theorem appenddExtendsContent : Obligations.AppenddExtendsContent :=
  fun _ _ _ _ hw hf hinv => ⟨_, exec_writes_eq (.appendd hw hf), appendBitsOf_extends hf hinv _ _⟩

theorem execList_cons_of_next {i : Instr} {s t : State} (h : exec i s = .next t) (is : List Instr) :
    execList (i :: is) s = execList is t := by
  rw [execList, h]

/-- Settles O19: a finished writer refuses the first piece, and an open one stays open for the second. -/
theorem appendMayBeCut : Obligations.AppendMayBeCut := by
  intro sel v a b s hab
  have ha : (BitVec.ofNat 8 a).toNat = a := toNat_ofNat_width (by omega)
  have hb : (BitVec.ofNat 8 b).toNat = b := toNat_ofNat_width (by omega)
  have hsum : (BitVec.ofNat 8 (a + b)).toNat = a + b := toNat_ofNat_width hab
  cases hf : (writerAt s sel).fin with
  | true =>
    rw [execList, exec_append_legal (by omega), exec_append_legal hab, hf]
    rfl
  | false =>
    have hfirst := exec_of_writes (.append (value := v >>> b) (width := BitVec.ofNat 8 a) (by omega) hf)
    have hsecond := exec_of_writes (s := complete 0#4 0#32 (setWriter s sel (appendBitsOf (writerAt s sel) (v >>> b) a)))
      (.append (sel := sel) (value := v) (width := BitVec.ofNat 8 b) (by omega) (by simpa using hf))
    have hwhole := exec_of_writes (.append (value := v) (width := BitVec.ofNat 8 (a + b)) (by omega) hf)
    rw [ha] at hfirst
    rw [execList_cons_of_next hfirst, execList_cons_of_next hsecond, execList, hwhole, hb, hsum, appendBitsOf_add]
    simp [complete_setWriter]

/-! ## The closed form (R126) -/

/-- The number `N` of R126 holds the `o` bits of `a`, then the low `k` bits of `x`. -/
theorem natBits_shiftLeft_or (a x : Nat) {k : Nat} (o : Nat) :
    natBits ((a <<< k) ||| (x % 2 ^ k)) (o + k) = natBits a o ++ natBits x k := by
  rw [natBits_add]
  congr 1
  · refine natBits_congr fun i _ => ?_
    simp
  · refine natBits_congr fun i hi => ?_
    have : ¬ k ≤ i := by omega
    simp [hi, this]

theorem natBits_ofNat_byte (n : Nat) : natBits (BitVec.ofNat 8 (n % 256)).toNat 8 = natBits n 8 :=
  natBits_congr fun i hi => by
    rw [BitVec.toNat_ofNat, Nat.mod_mod, show 256 = 2 ^ 8 from rfl, Nat.testBit_mod_two_pow]
    simp [hi]

/-- The first `q` bytes of a `t`-bit number are its first `8 * q` bits. -/
theorem bytesBits_topBytes (n t : Nat) {q : Nat} (hq : 8 * q ≤ t) :
    bytesBits ((List.range q).map fun j => BitVec.ofNat 8 ((n >>> (t - 8 * (j + 1))) % 256)) =
      natBits (n >>> (t - 8 * q)) (8 * q) := by
  induction q with
  | zero => rfl
  | succ q ih =>
    have hshift : t - 8 * (q + 1) + 8 = t - 8 * q := by omega
    rw [List.range_succ, List.map_append, bytesBits_append, ih (by omega), List.map_singleton, bytesBits_singleton,
      natBits_ofNat_byte, Nat.mul_succ, natBits_add, ← Nat.shiftRight_add, ← Nat.mul_succ, hshift]

/-- The filled bits of the new `pend` are the last `r` bits of the number. -/
theorem natBits_take_pend (n : Nat) {r : Nat} (hr : r < 8) :
    (natBits (BitVec.ofNat 8 ((n % 2 ^ r) <<< (8 - r))).toNat 8).take r = natBits n r := by
  rw [natBits_take _ hr.le]
  refine natBits_congr fun i hi => ?_
  have : 8 - r + i < 8 := by omega
  rw [Nat.testBit_shiftRight, BitVec.toNat_ofNat, Nat.testBit_mod_two_pow]
  simp [this, hi]

theorem writerInv_closedAppend (w : BitWriter) (x k : Nat) : WriterInv (closedAppend w x k) := by
  intro i hi
  have hlow : ¬ 8 - (w.off.val + k) % 8 ≤ i := Nat.not_le.2 hi
  simp [closedAppend, BitVec.getLsbD_ofNat, hlow]

theorem content_closedAppend (w : BitWriter) (x k : Nat) :
    content (closedAppend w x k) = content w ++ natBits x k := by
  have hr : (w.off.val + k) % 8 < 8 := Nat.mod_lt _ (by decide)
  have hcut : w.off.val + k - 8 * ((w.off.val + k) / 8) = (w.off.val + k) % 8 := by omega
  have htotal : 8 * ((w.off.val + k) / 8) + (w.off.val + k) % 8 = w.off.val + k := by omega
  simp only [content, closedAppend]
  rw [bytesBits_append, bytesBits_topBytes _ _ (by omega), natBits_take_pend _ hr, List.append_assoc, hcut,
    ← natBits_add, htotal, natBits_shiftLeft_or, natBits_take _ w.off.isLt.le, List.append_assoc]

/-- R126: the closed form is the bit-serial append, since both have one content. -/
theorem closedAppend_eq {w : BitWriter} (hinv : WriterInv w) (x : Word) (k : Nat) :
    closedAppend w x.toNat k = appendBitsOf w x k :=
  writer_ext_of_content (writerInv_closedAppend w _ k) (writerInv_appendBitsOf hinv x k) (appendBitsOf_fin w x k).symm
    ((content_closedAppend w _ k).trans (content_appendBitsOf hinv x k).symm)

/-- Settles O17: each append is the bit-serial procedure, and that computes the closed form. -/
theorem appendClosedForm : Obligations.AppendClosedForm := by
  intro sel value width s hw hf hinv
  rw [closedAppend_eq hinv, closedAppend_eq hinv]
  exact ⟨exec_writes_eq (.append hw hf), exec_writes_eq (.appendd hw hf)⟩

/-! ## Finishing (R123) -/

/-- Settles O20: each clause is a law of `FinishOf`. -/
theorem finishPadsAndFlushes : Obligations.FinishPadsAndFlushes :=
  fun _ _ hf hinv => ⟨_, exec_writes_eq (.finish hf), finishOf_buf _, bytesBits_finishOf hinv, finishOf_buf_length _⟩

/-- The pad brings the stream to the next byte boundary. -/
theorem contentLength_finishOf (w : BitWriter) : contentLength (finishOf w) = 8 * ceil8 (contentLength w) := by
  rw [← finishOf_buf_length]
  rfl

/-! ## Runs of appends (R127) -/

/-- The run that appends each value with its width. -/
def appendAll (sel : WSel) (pieces : List (Word × Byte)) : List Instr := pieces.map fun p => .append sel p.1 p.2

/-- On an open writer the appends complete one after the other, and skip no bit. -/
theorem execList_appendAll {sel : WSel} {pieces : List (Word × Byte)} {s : State} (hw : ∀ p ∈ pieces, p.2.toNat ≤ 32)
    (hf : (writerAt s sel).fin = false) :
    ∃ t, execList (appendAll sel pieces) s = .next t ∧ (writerAt t sel).fin = false ∧
      contentLength (writerAt t sel) = contentLength (writerAt s sel) + (pieces.map fun p => p.2.toNat).sum := by
  induction pieces generalizing s with
  | nil => exact ⟨s, rfl, hf, rfl⟩
  | cons p ps ih =>
    obtain ⟨hp, hps⟩ := List.forall_mem_cons.1 hw
    have hexec := exec_of_writes (.append (value := p.1) hp hf)
    obtain ⟨t, hrun, hopen, hlength⟩ := ih hps
      (s := complete 0#4 0#32 (setWriter s sel (appendBitsOf (writerAt s sel) p.1 p.2.toNat))) (by simpa using hf)
    refine ⟨t, (execList_cons_of_next hexec _).trans hrun, hopen, ?_⟩
    rw [hlength, writerAt_complete, writerAt_setWriter_same, contentLength_appendBitsOf, List.map_cons, List.sum_cons,
      Nat.add_assoc]

/-- Settles O23: the run starts on the empty writer that `WINIT` leaves. -/
theorem appendsPackTightly : Obligations.AppendsPackTightly := by
  intro sel pieces s hw
  have hinit := exec_of_writes (Writes.winit (s := s) sel)
  obtain ⟨t, hrun, hopen, hlength⟩ :=
    execList_appendAll (sel := sel) (s := complete 0#4 0#32 (setWriter s sel initWriter)) hw (by simp)
  refine ⟨t, _, (execList_cons_of_next hinit _).trans hrun, by simpa using hlength, exec_of_writes (.finish hopen), ?_⟩
  rw [writerAt_complete, writerAt_setWriter_same, contentLength_finishOf, ceil8]
  omega

end Sys2Proof.Machine
end

section
/-! PROOFS. The reader's operations (42_bitreader.md): what `TAKE` and `TAKEI` deliver and how they end, the closed form of one
read (R145), and that nothing reads the cursor of an invalid reader (U6). -/

namespace Sys2Proof.Machine

open Sys2Proof

/-- Settles O26: the one rule of `RINIT`. -/
theorem rinitConstructsReader : Obligations.RinitConstructsReader :=
  fun s => exec_of_completes (.rinit s)

/-! ## The unread bits (R24, R141) -/

/-- The bits of `IN` from the position of the reader on. -/
def unreadBits (inp : List Byte) (r : BitReader) : List Bool := (bytesBits inp).drop (bitPos r)

/-- `rem(R)` counts the unread bits (R24). -/
@[simp] theorem unreadBits_length (inp : List Byte) (r : BitReader) : (unreadBits inp r).length = remBits inp r := by
  simp [unreadBits, remBits]

/-- After `k` bits are read the others are left. -/
theorem unreadBits_advance {inp : List Byte} {r r' : BitReader} {k : Nat} (h : bitPos r' = bitPos r + k) :
    unreadBits inp r' = (unreadBits inp r).drop k := by
  rw [unreadBits, h, ← List.drop_drop, unreadBits]

theorem bitPos_add_le {inp : List Byte} {r : BitReader} {k : Nat} (hinv : ReaderInv inp r) (hk : k ≤ remBits inp r) :
    bitPos r + k ≤ 8 * inp.length := by
  obtain ⟨hpos, -⟩ := readerInv_iff.1 hinv
  unfold remBits at hk
  omega

/-! ## The two reads (R141, R142) -/

section
variable {i : Instr} {s : State} {k : Nat} {result : Nat → Nat}

/-- A read inside `IN` delivers the number of the next `k` bits and moves the position by `k`. -/
theorem exec_of_reads_within (hi : Reads i k result) (hv : s.reader.valid = true) (hinv : ReaderInv s.inp s.reader)
    (hk : k ≤ remBits s.inp s.reader) :
    ∃ r, exec i s = .next (complete 0#4 (BitVec.ofNat 32 (result (bitsNum ((unreadBits s.inp s.reader).take k))))
        { s with reader := r }) ∧
      bitPos r = bitPos s.reader + k ∧ r.valid = true ∧ ReaderInv s.inp r ∧ (k = 0 → r = s.reader) := by
  obtain ⟨r, hr, hpos, hvalid, hinv'⟩ := takeBitsOf_spec hinv (bitPos_add_le hinv hk)
  refine ⟨r, exec_of_completes (.read hi hv hr), hpos, hvalid.trans hv, hinv', fun h0 => ?_⟩
  rw [h0, takeBitsOf_zero] at hr
  cases hr
  rfl

/-- A read past the end of `IN` clears `R.valid` and consumes nothing. -/
theorem exec_of_reads_short (hi : Reads i k result) (hv : s.reader.valid = true) (hk : remBits s.inp s.reader < k) :
    exec i s = .next (complete 4#4 0#32 { s with reader := clearValid s.reader }) :=
  exec_of_completes (.readOutOfData hi hv (takeBitsOf_eq_none.2 hk))

/-- Before `RINIT`, and after a read that failed, there is no reader to read with (R207). -/
theorem exec_of_reads_invalid (hi : Reads i k result) (hv : s.reader.valid = false) :
    exec i s = .refused .readerNotValid := by
  cases hi with
  | take hw => rw [exec, execTake, legalWidth_iff.2 hw, hv]; rfl
  | takei hw => rw [exec, execTakei, legalWidth_iff.2 hw, hv]; rfl

end

/-- Settles O27: `TAKE` delivers the number itself. -/
theorem takeDeliversNextBits : Obligations.TakeDeliversNextBits :=
  fun _ _ hw hv hinv hk => exec_of_reads_within (.take hw) hv hinv hk

theorem takeiResult_of_pos {width : Nat} (h : 1 ≤ width) (v : Nat) : takeiResult width v = 2 ^ (width - 1) + v :=
  if_neg (by omega)

/-- Settles O28: `TAKEI 0` is the read of no bits that delivers 0, and any other restores the leading one. -/
theorem takeiRestoresLeadingOne : Obligations.TakeiRestoresLeadingOne := by
  intro width s hw hv hinv
  refine ⟨fun h0 => ?_, fun h1 hk => ?_⟩
  · obtain ⟨r, hexec, -, -, -, hr⟩ := exec_of_reads_within (.takei hw) hv hinv (by omega)
    rw [hr (by omega), takeiResult, if_pos h0] at hexec
    exact hexec
  · obtain ⟨r, hexec, hpos, hvalid, hinv', hr⟩ := exec_of_reads_within (.takei hw) hv hinv hk
    rw [takeiResult_of_pos h1] at hexec
    exact ⟨r, hexec, hpos, hvalid, hinv', fun h => hr (by omega)⟩

/-- Settles O31: both reads meet the end of `IN`. -/
theorem readsPastTheEndFail : Obligations.ReadsPastTheEndFail :=
  fun _ _ hw hv => ⟨exec_of_reads_short (.take hw) hv, fun _ => exec_of_reads_short (.takei hw) hv⟩

/-! ## The width of what `TAKEI` delivers (R111, R142) -/

/-- A value between `2^n` and `2^(n+1)` has natural width `n + 1`. -/
theorem bitWidth_eq_succ {v : Word} {n : Nat} (hlo : 2 ^ n ≤ v.toNat) (hhi : v.toNat < 2 ^ (n + 1)) :
    bitWidth v = n + 1 := by
  have hle : bitWidth v ≤ n + 1 := bitWidth_le_iff.2 hhi
  have hgt : ¬ bitWidth v ≤ n := mt bitWidth_le_iff.1 (Nat.not_lt.2 hlo)
  omega

/-- With a leading one restored above `n < 32` bits the number still fits a word. -/
theorem toNat_ofNat_leadingOne {n v : Nat} (hn : n < 32) (hv : v < 2 ^ n) :
    (BitVec.ofNat 32 (2 ^ n + v)).toNat = 2 ^ n + v := by
  have hword : 2 ^ (n + 1) ≤ 2 ^ 32 := Nat.pow_le_pow_right (by decide) hn
  rw [pow_succ] at hword
  exact Nat.mod_eq_of_lt (by omega)

/-- Settles O29: of the ways a `TAKEI` completes only the successful read leaves the status `OK`. -/
theorem takeiResultHasItsWidth : Obligations.TakeiResultHasItsWidth := by
  intro width s t h1 h32 h hok
  obtain ⟨n, hn⟩ : ∃ n, width.toNat = n + 1 := ⟨width.toNat - 1, by omega⟩
  rcases execTakei_next h with ⟨hw, -⟩ | ⟨-, -, ⟨h0, -⟩ | ⟨-, -, rfl⟩ | ⟨-, v, r, hr, rfl⟩⟩
  · exact absurd h32 hw
  · omega
  · cases hok
  · have hv := takeBitsOf_lt hr
    simp only [hn, Nat.add_sub_cancel, complete_cr] at hv ⊢
    have hvalue := toNat_ofNat_leadingOne (by omega) hv
    have hlt : 2 ^ n + v < 2 ^ (n + 1) := by rw [pow_succ]; omega
    exact ⟨by omega, by omega, bitWidth_eq_succ (by omega) (by omega)⟩

/-! ## The closed form (R145, R146) -/

/-- Shifting and masking a number cuts `k` bits out of its digits, behind the first `o`. -/
theorem bitsNum_shiftRight_mod {bs : List Bool} {n o k : Nat} (hn : bs.length = n) (h : o + k ≤ n) :
    (bitsNum bs >>> (n - o - k)) % 2 ^ k = bitsNum ((bs.drop o).take k) := by
  subst hn
  conv_rhs => rw [← natBits_bitsNum bs, natBits_drop _ (by omega), natBits_take _ (by omega), bitsNum_natBits]

/-- The `m` bytes from byte `q` on hold the bits from `8 * q` on. -/
theorem bytesNum_drop_take (inp : List Byte) (q m : Nat) :
    bytesNum ((inp.drop q).take m) = bitsNum (((bytesBits inp).drop (8 * q)).take (8 * m)) := by
  rw [bytesNum_eq, ← bytesBits_take, ← bytesBits_drop]

/-- R145: the closed form is the number of the `k` bits at the position `p`. -/
theorem closedTake_eq {inp : List Byte} {p k : Nat} (hk : 1 ≤ k) (h : p + k ≤ 8 * inp.length) :
    closedTake inp p k = bitsNum (((bytesBits inp).drop p).take k) := by
  simp only [closedTake]
  generalize hm : (p + k - 1) / 8 + 1 - p / 8 = m
  have hlength : (((bytesBits inp).drop (8 * (p / 8))).take (8 * m)).length = 8 * m := by
    rw [List.length_take, List.length_drop, bytesBits_length]
    omega
  rw [bytesNum_drop_take, bitsNum_shiftRight_mod hlength (by omega), List.drop_take, List.drop_drop, Nat.div_add_mod,
    List.take_take, Nat.min_eq_left (by omega)]

/-- The position determines the byte index and the bit offset (R24). -/
theorem cursor_of_bitPos (r : BitReader) : r.pos = bitPos r / 8 ∧ r.off.val = bitPos r % 8 := by
  have := r.off.isLt
  unfold bitPos
  omega

/-- Settles O30: `TAKE` delivers the number of the next bits, which is the closed form. -/
theorem takeClosedForm : Obligations.TakeClosedForm := by
  intro width s h1 hw hv hinv hk
  refine ⟨by omega, ?_⟩
  obtain ⟨r, hexec, hpos, -, hinv', -⟩ := exec_of_reads_within (.take hw) hv hinv hk
  obtain ⟨-, hcur⟩ := readerInv_iff.1 hinv'
  rw [closedTake_eq h1 (bitPos_add_le hinv hk), ← hpos]
  obtain ⟨hbyte, hoff⟩ := cursor_of_bitPos r
  exact ⟨r, hexec, hbyte, hoff, hcur⟩

/-! ## The outcomes (R143) -/

/-- A read completes, one way or the other, unless the reader is not valid. -/
theorem exec_of_reads_next_or_refused {i : Instr} {k : Nat} {result : Nat → Nat} (hi : Reads i k result) (s : State) :
    (∃ t, exec i s = .next t) ∨ exec i s = .refused .readerNotValid := by
  cases hv : s.reader.valid with
  | false => exact .inr (exec_of_reads_invalid hi hv)
  | true =>
    rw [exec_of_reads hi hv]
    rcases storeRead_cases s result (takeBitsOf s.inp s.reader k) with ⟨-, h⟩ | ⟨v, r, -, h⟩
    · exact .inl ⟨_, h⟩
    · exact .inl ⟨_, h⟩

theorem exec_reader_next_or_refused {i : Instr} (hi : opOf i ∈ [Op.rinit, .take, .takei]) (s : State) :
    (∃ t, exec i s = .next t) ∨ exec i s = .refused .readerNotValid := by
  cases hw : i.wellFormed with
  | false => exact .inl ⟨_, exec_reservedWidth hw s⟩
  | true =>
    cases i with
    | rinit => exact .inl ⟨_, rfl⟩
    | take width => exact exec_of_reads_next_or_refused (.take (of_decide_eq_true hw)) s
    | takei width => exact exec_of_reads_next_or_refused (.takei (of_decide_eq_true hw)) s
    | bitw | winit | append | appendd | finish | encode | decode => simp [opOf] at hi

/-- The statuses of the reader's operations; a well-formed one never completes `Illegal` (R86). -/
theorem status_of_reader {i : Instr} {s t : State} (hi : opOf i ∈ [Op.rinit, .take, .takei]) (h : exec i s = .next t) :
    t.cr.status ∈ [0#4, 4#4, 15#4] ∧ (t.cr.status = 15#4 → i.wellFormed = false) := by
  cases hw : i.wellFormed with
  | false =>
    rw [exec_reservedWidth hw] at h
    cases h
    simp
  | true =>
    rcases statusesPerOperation i s t hw h with hok | ⟨hop, -⟩ | ⟨-, hend⟩
    · simp [hok]
    · simp [hop] at hi
    · simp [hend]

/-- Settles O33: the frame is part of that of every operation (O50). -/
theorem readerOutcomes : Obligations.ReaderOutcomes := by
  intro i s hi
  refine (exec_reader_next_or_refused hi s).imp_left fun ⟨t, h⟩ => ?_
  obtain ⟨hfw, hinp, -, hval, -, hwriters⟩ := operationsTouchOnlyTheirState i s t h
  obtain ⟨h0, h1⟩ := hwriters (List.mem_cons_of_mem _ (List.mem_append_left [Op.decode] hi))
  obtain ⟨hstatus, hillegal⟩ := status_of_reader hi h
  exact ⟨t, h, hstatus, hinp, hfw, hval fun hop => by simp [hop] at hi, h0, h1, hillegal⟩

/-! ## The cursor of an invalid reader (R141, U6) -/

/-- The state with another reader. -/
def withReader (s : State) (r : BitReader) : State := { s with reader := r }

/-- `t'` is `t` but for the reader, and has the same reader too where it is valid. -/
def AgreeButReader (t t' : State) : Prop :=
  withReader t' t.reader = t ∧ t'.reader.valid = t.reader.valid ∧ (t.reader.valid = true → t'.reader = t.reader)

theorem agreeButReader_of_reader_eq {t t' : State} (h : withReader t' t.reader = t) (hr : t'.reader = t.reader) :
    AgreeButReader t t' :=
  ⟨h, by rw [hr], fun _ => hr⟩

/-- Of two invalid readers any will do. -/
theorem agreeButReader_of_invalid {t t' : State} {r : BitReader} (ht : t' = withReader t r) (hr : r.valid = false)
    (h : t.reader.valid = false) : AgreeButReader t t' := by
  subst ht
  exact ⟨rfl, hr.trans h.symm, fun hv => by simp [h] at hv⟩

theorem writerAt_withReader (s : State) (r : BitReader) (sel : WSel) : writerAt (withReader s r) sel = writerAt s sel := by
  cases sel <;> rfl

theorem setWriter_withReader (s : State) (r : BitReader) (sel : WSel) (w : BitWriter) :
    setWriter (withReader s r) sel w = withReader (setWriter s sel w) r := by
  cases sel <;> rfl

/-- Each rule but the two reads applies with another invalid reader too: `RINIT` and `DECODE` construct their own. -/
theorem completes_withReader {i : Instr} {s t : State} {r : BitReader} (h : Completes i s t)
    (hs : s.reader.valid = false) (hr : r.valid = false) :
    ∃ t', Completes i (withReader s r) t' ∧ AgreeButReader t t' := by
  cases h with
  | reservedWidth hi => exact ⟨_, .reservedWidth hi, agreeButReader_of_invalid rfl hr hs⟩
  | bitw value s => exact ⟨_, .bitw value _, agreeButReader_of_invalid rfl hr hs⟩
  | write hw =>
    refine ⟨_, .write (writes_congr (writerAt_withReader s r) hw), ?_⟩
    exact agreeButReader_of_invalid (by rw [setWriter_withReader]; rfl) hr (by simpa using hs)
  | rinit s => exact ⟨_, .rinit _, agreeButReader_of_reader_eq rfl rfl⟩
  | read _ hv | readOutOfData _ hv => simp [hs] at hv
  | encode hfw hw => exact ⟨_, .encode hfw hw, agreeButReader_of_invalid rfl hr hs⟩
  | encodeError hfw hc => exact ⟨_, .encodeError hfw hc, agreeButReader_of_invalid rfl hr hs⟩
  | decode hfw hd => exact ⟨_, .decode hfw hd, agreeButReader_of_reader_eq rfl rfl⟩
  | decodeOutOfData hfw hd => exact ⟨_, .decodeOutOfData hfw hd, agreeButReader_of_reader_eq rfl rfl⟩

/-- Settles O56: the rule that gave `t` applies with the other reader too. -/
theorem cursorOfInvalidReaderIsUnobservable : Obligations.CursorOfInvalidReaderIsUnobservable := by
  intro i s t r hs hr h
  obtain ⟨t', ht', hagree⟩ := completes_withReader (completes_of_exec h) hs hr
  exact ⟨t', exec_of_completes ht', hagree⟩

end Sys2Proof.Machine
end

section
/-! PROOFS. Reads undo appends (R144): the stream that a run of appends leaves is the pieces' bits and a pad, and the reads of
the same widths take the pieces off it one by one. -/

namespace Sys2Proof.Machine

open Sys2Proof

/-! ## The bits of a piece -/

/-- The value that the piece's append takes its bits from. -/
def Piece.value : Piece → Word
  | .plain value _ => value
  | .dropped value _ => value

/-- How many bits the piece's append writes and its read takes (R121, R122). -/
def Piece.count : Piece → Nat
  | .plain _ width => width.toNat
  | .dropped _ width => width.toNat - 1

/-- The bits that stand for the piece in the stream. -/
def Piece.bits (p : Piece) : List Bool := natBits p.value.toNat p.count

@[simp] theorem Piece.bits_length (p : Piece) : p.bits.length = p.count := natBits_length ..

/-- A legal piece's append writes the piece's bits. -/
theorem Piece.writes {p : Piece} (h : p.Legal) {s : State} {sel : WSel} (hf : (writerAt s sel).fin = false) :
    Writes s (p.write sel) sel (appendBitsOf (writerAt s sel) p.value p.count) := by
  cases p with
  | plain value width => exact .append h hf
  | dropped value width => exact .appendd h.1 hf

/-- With the leading one back in front, the low `width` bits of the value are the number `TAKEI` delivers (R142). -/
theorem takeiResult_mod {x width : Nat} (h : 1 ≤ width → x.testBit (width - 1) = true) :
    takeiResult width (x % 2 ^ (width - 1)) = x % 2 ^ width := by
  cases width with
  | zero => simp [takeiResult, Nat.mod_one]
  | succ n =>
    have hbit : x.testBit n = true := h (by omega)
    rw [takeiResult_of_pos (by omega), Nat.add_sub_cancel, ← bitsNum_natBits x (n + 1), natBits_succ, bitsNum_cons, hbit,
      natBits_length, bitsNum_natBits, Bool.toNat_true, Nat.one_mul]

/-- The piece's read takes as many bits, and makes the piece's number of them. -/
theorem Piece.reads {p : Piece} (h : p.Legal) :
    ∃ result, Reads p.read p.count result ∧ result (bitsNum p.bits) = p.number := by
  cases p with
  | plain value width => exact ⟨id, .take h, bitsNum_natBits ..⟩
  | dropped value width =>
    obtain ⟨hw, hlead⟩ := h
    exact ⟨_, .takei hw, by rw [Piece.bits, bitsNum_natBits]; exact takeiResult_mod hlead⟩

/-! ## Writing the pieces -/

/-- From an open writer on, the appends and `FINISH` leave the content, the pieces' bits and a pad of fewer than 8 zeros. -/
theorem execList_writePieces {sel : WSel} {ps : List Piece} {s : State} (hp : ∀ p ∈ ps, p.Legal)
    (hf : (writerAt s sel).fin = false) (hinv : WriterInv (writerAt s sel)) :
    ∃ t n, execList (ps.map (Piece.write sel) ++ [.finish sel]) s = .next t ∧ n < 8 ∧
      bytesBits (writerAt t sel).buf =
        content (writerAt s sel) ++ (ps.flatMap Piece.bits ++ List.replicate n false) := by
  induction ps generalizing s with
  | nil =>
    refine ⟨_, padLength (contentLength (writerAt s sel)), execList_cons_of_next (exec_of_writes (.finish hf)) [],
      Nat.mod_lt _ (by decide), ?_⟩
    simpa using bytesBits_finishOf hinv
  | cons p ps ih =>
    obtain ⟨hp, hps⟩ := List.forall_mem_cons.1 hp
    have hexec := exec_of_writes (p.writes hp hf)
    obtain ⟨t, n, hrun, hn, hbits⟩ := ih hps
      (s := complete 0#4 0#32 (setWriter s sel (appendBitsOf (writerAt s sel) p.value p.count)))
      (by simpa using hf) (by simpa using writerInv_appendBitsOf hinv _ _)
    refine ⟨t, n, (execList_cons_of_next hexec _).trans hrun, hn, ?_⟩
    rw [hbits, writerAt_complete, writerAt_setWriter_same, content_appendBitsOf hinv]
    simp [Piece.bits]

/-- After `WINIT` the stream holds nothing but the pieces and the pad. -/
theorem execList_writeStream (sel : WSel) {ps : List Piece} (s : State) (hp : ∀ p ∈ ps, p.Legal) :
    ∃ t n, execList (.winit sel :: ps.map (Piece.write sel) ++ [.finish sel]) s = .next t ∧ n < 8 ∧
      bytesBits (writerAt t sel).buf = ps.flatMap Piece.bits ++ List.replicate n false := by
  have hinit := exec_of_writes (Writes.winit (s := s) sel)
  obtain ⟨t, n, hrun, hn, hbits⟩ := execList_writePieces (sel := sel)
    (s := complete 0#4 0#32 (setWriter s sel initWriter)) hp (by simp) (by simpa using writerInv_initWriter)
  exact ⟨t, n, (execList_cons_of_next hinit _).trans hrun, hn, by simpa using hbits⟩

/-! ## Reading them back -/

/-- The reads take the pieces off the front of the unread bits, and leave the rest unread. -/
theorem readsBack_of_unreadBits {ps : List Piece} {rest : List Bool} {s : State} (hp : ∀ p ∈ ps, p.Legal)
    (hv : s.reader.valid = true) (hinv : ReaderInv s.inp s.reader)
    (hbits : unreadBits s.inp s.reader = ps.flatMap Piece.bits ++ rest) :
    ∃ z, ReadsBack ps s z ∧ unreadBits z.inp z.reader = rest := by
  induction ps generalizing s with
  | nil => exact ⟨s, rfl, hbits⟩
  | cons p ps ih =>
    obtain ⟨hp, hps⟩ := List.forall_mem_cons.1 hp
    rw [List.flatMap_cons, List.append_assoc] at hbits
    have hk : p.count ≤ remBits s.inp s.reader := by
      rw [← unreadBits_length, hbits, List.length_append, Piece.bits_length]
      exact Nat.le_add_right ..
    obtain ⟨result, hreads, hnumber⟩ := p.reads hp
    obtain ⟨r, hexec, hpos, hvalid, hinv', -⟩ := exec_of_reads_within hreads hv hinv hk
    rw [hbits, List.take_left' p.bits_length, hnumber] at hexec
    have hbits' : unreadBits s.inp r = ps.flatMap Piece.bits ++ rest := by
      rw [unreadBits_advance hpos, hbits, List.drop_left' p.bits_length]
    obtain ⟨z, hz, hrest⟩ := ih hps (s := complete 0#4 (BitVec.ofNat 32 p.number) { s with reader := r }) hvalid hinv'
      hbits'
    exact ⟨z, ⟨_, hexec, rfl, hz⟩, hrest⟩

/-- `.in W0` and `.in W1` under unbounded capacities (R34). -/
theorem performAction_copyIn (sel : WSel) (s : State) :
    performAction Config.params exec (.copyIn sel) s =
      .next { s with inp := (writerAt s sel).buf, reader := clearValid s.reader } :=
  rfl

/-- Settles O34: the copied stream is the pieces' bits and the pad, and `RINIT` starts the reads at its first bit. -/
theorem readsInvertAppends : Obligations.ReadsInvertAppends := by
  intro sel ps s hp
  obtain ⟨t, n, hrun, hn, hbits⟩ := execList_writeStream sel s hp
  obtain ⟨z, hz, hrest⟩ := readsBack_of_unreadBits hp
    (s := complete 0#4 0#32 { t with inp := (writerAt t sel).buf, reader := initReader })
    rfl (readerInv_initReader _) hbits
  have hrem : remBits z.inp z.reader = n := by rw [← unreadBits_length, hrest, List.length_replicate]
  exact ⟨t, _, _, z, hrun, performAction_copyIn sel t, rfl, exec_of_completes (.rinit _), hz, by omega, hrem ▸ hrest⟩

end Sys2Proof.Machine
end

section
/-! PROOFS. The operation `ENCODE` (43_encoder.md): the ways it ends, the error it reports (R161, R162), that its result is a
function of `FW` and `VAL` (R164, R166), and the single-writer sequence with the same bytes (R165). -/

namespace Sys2Proof.Machine

open Sys2Proof

/-! ## A function of `FW` and `VAL` (R164, R166) -/

/-- What `ENCODE` makes of a descriptor and values under the default parameters. -/
def encodeResult (fw : List Byte) (vs : List Word) : Except Stop BitWriter :=
  if anyWide fw then .error (.refuse .fieldWidthOver32) else encodeBody none fw vs

theorem exec_encode_eq (s : State) : exec .encode s = storeEncoded s (encodeResult s.fw s.val) := by
  rw [exec, execEncode, execEncodeWith, encodeResult]
  split_ifs <;> rfl

/-- Settles O40: the test on `FW` comes first in both operations, and the default policy is the refusal. -/
theorem wideFieldIsRefused : Obligations.WideFieldIsRefused := by
  intro s hwide
  have hw : anyWide s.fw = true := anyWide_iff.2 hwide
  exact ⟨execEncodeWith_wide (p := Config.params) hw, execDecodeWith_wide (p := Config.params) hw⟩

section
variable {s t : State} {r : Except Stop BitWriter}

/-- The end of `ENCODE` overwrites both writers and `CR`, whatever they held. -/
theorem storeEncoded_next_congr (s' : State) (h : storeEncoded s r = .next t) :
    ∃ t', storeEncoded s' r = .next t' ∧ t'.w0 = t.w0 ∧ t'.w1 = t.w1 ∧ t'.cr = t.cr := by
  rcases r with (c | reason) | w
  · cases h; exact ⟨_, rfl, rfl, rfl, rfl⟩
  · cases h
  · cases h; exact ⟨_, rfl, rfl, rfl, rfl⟩

theorem storeEncoded_refused_congr (s' : State) {reason : Refusal} (h : storeEncoded s r = .refused reason) :
    storeEncoded s' r = .refused reason := by
  rcases r with (c | reason') | w
  · cases h
  · cases h; rfl
  · cases h

end

/-- Settles O39: both states store the one result of their common `FW` and `VAL`. -/
theorem encodeIgnoresEarlierState : Obligations.EncodeIgnoresEarlierState := by
  intro s s' hfw hval
  rw [exec_encode_eq, exec_encode_eq, hfw, hval]
  exact ⟨fun _ => storeEncoded_refused_congr s', fun _ => storeEncoded_next_congr s'⟩

/-! ## The ways it completes (R162, R163) -/

/-- Fields that `ENCODE` encoded had passed its checks. -/
theorem fieldFits_of_encodeBody_ok {fw : List Byte} {vs : List Word} {w : BitWriter} (h : encodeBody none fw vs = .ok w) :
    fw.length = vs.length ∧ ∀ f ∈ fw.zip vs, FieldFits f.1 f.2 := by
  obtain ⟨-, hl, -⟩ := encodeBody_ok h
  rw [encodeBody, if_neg (not_not.2 hl)] at h
  cases hfields : encodeFields none fw vs initScratch with
  | error stop => rw [hfields] at h; cases h
  | ok e => exact ⟨hl, encodeFields_ok hl hfields⟩

/-- `ENCODE` completes `OK` on encodable fields, or it fails with one of its three errors. -/
theorem exec_encode_next {s t : State} (h : exec .encode s = .next t) :
    (EncodableFields s.fw s.val ∧ t.cr.status = 0#4) ∨ ∃ c ∈ [1#4, 2#4, 3#4], t = failEncode c s := by
  obtain ⟨-, c, hp, -⟩ | ⟨hfw, ⟨w, hw, rfl⟩ | ⟨c, hc, rfl⟩⟩ := execEncodeWith_next (p := Config.params) h
  · cases hp
  · exact .inl ⟨⟨anyWide_eq_false.1 hfw, fieldFits_of_encodeBody_ok hw⟩, rfl⟩
  · refine .inr ⟨c, ?_, rfl⟩
    obtain hc | hc | hc := encodeBody_error hc <;> cases hc <;> simp

/-- Settles O38: the status is not `OK`, so the operation failed. -/
theorem failedEncodeKeepsNothing : Obligations.FailedEncodeKeepsNothing := by
  intro s t h hstatus
  obtain ⟨-, hok⟩ | ⟨c, hc, rfl⟩ := exec_encode_next h
  · exact absurd hok hstatus
  · exact ⟨hc, rfl⟩

/-! ## The first error (R161) -/

theorem encodeBody_countMismatch {fw : List Byte} {vs : List Word} (h : fw.length ≠ vs.length) :
    encodeBody none fw vs = .error (.raise 1#4) :=
  if_pos h

/-- After fields that pass, the stop of the next field ends `ENCODE`, whatever the fields behind it are. -/
theorem encodeBody_stop_of_field {ws ws' : List Byte} {w : Byte} {vs vs' : List Word} {v : Word} {stop : Stop}
    (hl : ws.length = vs.length) (hl' : ws'.length = vs'.length) (hfits : ∀ f ∈ ws.zip vs, FieldFits f.1 f.2)
    (hstop : ∀ e, encodeField none w v e = .error stop) :
    encodeBody none (ws ++ w :: ws') (vs ++ v :: vs') = .error stop := by
  have hlength : (ws ++ w :: ws').length = (vs ++ v :: vs').length := by simp [hl, hl']
  rw [encodeBody, if_neg (not_not.2 hlength), encodeFields_append hl hfits, encodeFields, hstop]

/-- Settles O37: the counts first, then the first field that stops, whose width is tested first. -/
theorem encodeReportsFirstError : Obligations.EncodeReportsFirstError := by
  intro s hwide
  have hfails {c : BitVec 4} (hc : encodeBody none s.fw s.val = .error (.raise c)) :
      exec .encode s = .next (failEncode c s) :=
    exec_of_completes (.encodeError (anyWide_eq_false.2 hwide) hc)
  refine ⟨fun hcounts => hfails (encodeBody_countMismatch hcounts), ?_⟩
  intro ws ws' w vs vs' v hfw hval hl hl' hfits
  rw [hfw, hval] at hfails
  refine ⟨fun hzero => ?_, fun hnonzero hlarge => ?_⟩
  · exact hfails (encodeBody_stop_of_field hl hl' hfits fun e => by rw [encodeField_none, if_pos hzero])
  · exact hfails (encodeBody_stop_of_field hl hl' hfits fun e => by
      rw [encodeField_none, if_neg hnonzero, if_pos hlarge])

/-! ## The single-writer sequence (R165) -/

/-- The pieces of R165: each natural width in its field width, then each value without its leading one. -/
def singleStream (fw : List Byte) (vs : List Word) : List Piece :=
  List.zipWith (fun w v => .plain (BitVec.ofNat 32 (bitWidth v)) w) fw vs ++
    vs.map fun v => .dropped v (BitVec.ofNat 8 (bitWidth v))

/-- The appends of these pieces, as R165 writes them. -/
theorem write_singleStream (sel : WSel) (fw : List Byte) (vs : List Word) :
    (singleStream fw vs).map (Piece.write sel) =
      List.zipWith (fun w v => .append sel (BitVec.ofNat 32 (bitWidth v)) w) fw vs ++
        vs.map fun v => .appendd sel v (BitVec.ofNat 8 (bitWidth v)) := by
  simp only [singleStream, List.map_append, List.map_zipWith, List.map_map, Function.comp_def, Piece.write]

theorem legal_singleStream {fw : List Byte} (hwide : NoWideField fw) (vs : List Word) :
    ∀ p ∈ singleStream fw vs, p.Legal := by
  intro p hp
  rcases List.mem_append.1 hp with hp | hp
  · rw [← List.map_uncurry_zip_eq_zipWith] at hp
    obtain ⟨⟨w, v⟩, hmem, rfl⟩ := List.mem_map.1 hp
    exact hwide w (List.of_mem_zip hmem).1
  · obtain ⟨v, -, rfl⟩ := List.mem_map.1 hp
    rw [Piece.Legal, toNat_ofNat_width (bitWidth_le v)]
    exact ⟨bitWidth_le v, fun h => getLsbD_bitWidth (by omega)⟩

/-- The pieces' bits are the two streams of the format (R90). -/
theorem bits_singleStream (fw : List Byte) (vs : List Word) :
    (singleStream fw vs).flatMap Piece.bits = specStream fw vs ++ payStream vs := by
  have hspec (w : Byte) (v : Word) : Piece.bits (.plain (BitVec.ofNat 32 (bitWidth v)) w) = specBits w v := by
    rw [Piece.bits, Piece.value, toNat_ofNat_bitWidth]; rfl
  have hpay (v : Word) : Piece.bits (.dropped v (BitVec.ofNat 8 (bitWidth v))) = payBits v := by
    rw [Piece.bits, Piece.count, toNat_ofNat_width (bitWidth_le v)]; rfl
  simp only [singleStream, List.flatMap_def, List.map_append, List.flatten_append, List.map_zipWith, List.map_map,
    Function.comp_def, hspec, hpay, specStream, payStream]

/-- One bit stream padded to whole bytes in two ways gives the same bytes. -/
theorem eq_of_bytesBits_padded {as bs : List Byte} {bits : List Bool} {m n : Nat} (hm : m < 8) (hn : n < 8)
    (ha : bytesBits as = bits ++ List.replicate m false) (hb : bytesBits bs = bits ++ List.replicate n false) :
    as = bs := by
  have hla := congrArg List.length ha
  have hlb := congrArg List.length hb
  simp only [bytesBits_length, List.length_append, List.length_replicate] at hla hlb
  obtain rfl : m = n := by omega
  exact bytesBits_injective (ha.trans hb.symm)

/-- A run that ends in `FINISH` leaves a finished writer. -/
theorem finishOf_of_execList_finish {sel : WSel} {is : List Instr} {s t : State}
    (h : execList (is ++ [.finish sel]) s = .next t) : ∃ w, writerAt t sel = finishOf w := by
  induction is generalizing s with
  | nil =>
    rw [List.nil_append, execList] at h
    cases hexec : exec (.finish sel) s with
    | next u =>
      rw [hexec] at h
      cases h
      obtain ⟨-, rfl, -⟩ := execFinishWith_next (p := Config.params) hexec
      exact ⟨writerAt s sel, by simp⟩
    | fault | refused => rw [hexec] at h; cases h
  | cons i is ih =>
    rw [List.cons_append, execList] at h
    cases hexec : exec i s with
    | next u => rw [hexec] at h; exact ih h
    | fault | refused => rw [hexec] at h; cases h

/-- Settles O36: both buffers are the two streams padded to whole bytes, and both writers are finished. -/
theorem encodeEqualsSingleStream : Obligations.EncodeEqualsSingleStream := by
  intro s t h hstatus
  obtain ⟨hencodable, -⟩ | ⟨c, hc, rfl⟩ := exec_encode_next h
  · obtain ⟨buf, hexec, hbits, hlength⟩ := encodeWritesTheFormat s hencodable
    cases hexec.symm.trans h
    obtain ⟨u, n, hrun, hn, hubits⟩ := execList_writeStream .w0 s (legal_singleStream hencodable.1 s.val)
    obtain ⟨w, hw⟩ := finishOf_of_execList_finish hrun
    rw [bits_singleStream] at hubits
    have hbuf : (writerAt u .w0).buf = buf :=
      eq_of_bytesBits_padded hn (Nat.mod_lt _ (by decide)) hubits hbits
    refine ⟨u, ?_, ?_, hlength⟩
    · rw [write_singleStream] at hrun
      simpa using hrun
    · rw [hw] at hbuf
      exact hw.trans ((finishOf_eq w).trans (by rw [hbuf]))
  · obtain rfl : c = 0#4 := hstatus
    exact absurd hc (by decide)

end Sys2Proof.Machine
end

section
/-! PROOFS. The operation `DECODE` (44_decoder.md): what the two passes make of `IN` (R180 to R183, R186), that a field of width 0
and bytes behind the last payload change nothing else (R185, R187), and the round trip with `ENCODE` (R188). -/

namespace Sys2Proof.Machine

open Sys2Proof

/-! ## The two passes as one (R180) -/

/-- Without a wide field width `DECODE` stores what the passes deliver, or ends as they do. -/
theorem exec_decode_eq {s : State} (hwide : NoWideField s.fw) :
    exec .decode s = storeDecoded Config.params s (decodePasses s.inp s.fw) := by
  rw [exec, execDecode, execDecodeWith, anyWide_eq_false.2 hwide]
  rfl

/-- A `DECODE` that completes `OK` read every field. -/
theorem exec_decode_ok {s t : State} (h : exec .decode s = .next t) (hstatus : t.cr.status = 0#4) :
    NoWideField s.fw ∧ ∃ xs r, decodePasses s.inp s.fw = .done xs r ∧
      t = complete 0#4 0#32 { s with val := xs, reader := clearValid r } := by
  obtain ⟨-, c, hp, -⟩ | ⟨hfw, ⟨xs, r, hr, -, rfl⟩ | ⟨r, -, rfl⟩ | ⟨r, c, -, hp, -⟩⟩ :=
    execDecodeWith_next (p := Config.params) h
  · cases hp
  · exact ⟨anyWide_eq_false.1 hfw, xs, r, hr, rfl⟩
  · exact absurd hstatus (show ¬ (4#4 : BitVec 4) = 0#4 by decide)
  · cases hp

section
variable {inp fw : List Byte}

/-- When `IN` holds all specifiers, the second pass starts behind them (R183). -/
theorem decodePasses_eq_payloadPass (hlen : widthSum fw ≤ 8 * inp.length) :
    ∃ r, decodePasses inp fw = payloadPass inp (specsOf (bytesBits inp) fw) r ∧ bitPos r = widthSum fw ∧
      ReaderInv inp r := by
  obtain ⟨r, hdone, hpos, hinv⟩ := specifierPass_done fw (readerInv_initReader inp) (by simpa using hlen)
  refine ⟨r, ?_, by simpa using hpos, hinv⟩
  rw [decodePasses, hdone]
  rfl

theorem decodePasses_specifiers_short (hlen : 8 * inp.length < widthSum fw) :
    ∃ r, decodePasses inp fw = .outOfData r := by
  obtain ⟨r, hshort⟩ := specifierPass_short fw (readerInv_initReader inp) (by simpa using hlen)
  exact ⟨r, by rw [decodePasses, hshort]⟩

/-- Both passes succeed when the first does and the second does from where the first ends. -/
theorem decodePasses_done_iff {xs : List Word} {r : BitReader} :
    decodePasses inp fw = .done xs r ↔
      ∃ nws r', specifierPass inp fw initReader = .done nws r' ∧ payloadPass inp nws r' = .done xs r := by
  rw [decodePasses]
  cases specifierPass inp fw initReader <;> simp

end

/-! ## The outcomes (R181 to R183, R186) -/

/-- Settles O42: the second pass starts behind the specifiers and reads the payloads. -/
theorem decodeReadsTheFormat : Obligations.DecodeReadsTheFormat := by
  intro s hwide hspecs hlen
  obtain ⟨r, hpasses, hpos, hinv⟩ := decodePasses_eq_payloadPass (inp := s.inp) (fw := s.fw) (by omega)
  obtain ⟨r', hdone, hpos', -⟩ := payloadPass_done (inputSpecs s) hinv hspecs (hpos.symm ▸ hlen)
  rw [hpos] at hdone hpos'
  exact ⟨clearValid r', exec_of_completes (.decode (anyWide_eq_false.2 hwide) (hpasses.trans hdone)), rfl, hpos'⟩

/-- Settles O43: by the pass that runs short. -/
theorem decodeOfShortInputFails : Obligations.DecodeOfShortInputFails := by
  intro s hwide hshort
  obtain ⟨r, hpasses⟩ : ∃ r, decodePasses s.inp s.fw = .outOfData r := by
    obtain hlen | ⟨hlen, k, hspecs, hlenk⟩ := hshort
    · exact decodePasses_specifiers_short hlen
    · obtain ⟨r, hpasses, hpos, hinv⟩ := decodePasses_eq_payloadPass hlen
      obtain ⟨r', hout⟩ := payloadPass_short (inputSpecs s) k hinv hspecs (hpos.symm ▸ hlenk)
      exact ⟨r', hpasses.trans hout⟩
  exact ⟨clearValid r, exec_of_completes (.decodeOutOfData (anyWide_eq_false.2 hwide) hpasses), rfl⟩

/-- Settles O44: the second pass reads the fields `before` and stops at the next specifier. -/
theorem overlongSpecifierIsRefused : Obligations.OverlongSpecifierIsRefused := by
  intro s before after nw hwide hlen hspecs hnw hbefore hlenBefore
  obtain ⟨r, hpasses, hpos, hinv⟩ := decodePasses_eq_payloadPass hlen
  obtain ⟨r', hpayloads, -⟩ := payloadPass_append before hinv hbefore (hpos.symm ▸ hlenBefore) (nw :: after)
  have hstop : payloadPass s.inp (nw :: after) r' = .overlong r' := by rw [payloadPass, if_pos (by omega)]
  have hoverlong : decodePasses s.inp s.fw = .overlong r' := by
    rw [hpasses, ← inputSpecs, hspecs, hpayloads, hstop, foldr_consPass_overlong]
  rw [exec_decode_eq hwide, hoverlong]
  rfl

/-! ## The fields of a pass that succeeds -/

section
variable {inp : List Byte} {r r'' : BitReader}

theorem consPass_eq_done_iff {α : Type} {x : α} {p : Pass α} {ys : List α} :
    consPass x p = .done ys r ↔ ∃ xs, p = .done xs r ∧ ys = x :: xs := by
  cases p <;> simp [consPass, and_comm, eq_comm]

/-- The first pass succeeds when its first read does and the rest does from there. -/
theorem specifierPass_cons_done_iff {w : Byte} {ws : List Byte} {nws : List Nat} :
    specifierPass inp (w :: ws) r = .done nws r'' ↔
      ∃ nw r' rest, takeBitsOf inp r w.toNat = some (nw, r') ∧ specifierPass inp ws r' = .done rest r'' ∧
        nws = nw :: rest := by
  rw [specifierPass]
  cases takeBitsOf inp r w.toNat with
  | none => simp
  | some p =>
    obtain ⟨nw, r'⟩ := p
    simp [consPass_eq_done_iff]

/-- The same for the second pass; a specifier 0 is a read of no bits. -/
theorem payloadPass_cons_done_iff {nw : Nat} {nws : List Nat} {vs : List Word} :
    payloadPass inp (nw :: nws) r = .done vs r'' ↔
      nw ≤ 32 ∧ ∃ v r' rest, takeBitsOf inp r (nw - 1) = some (v, r') ∧ payloadPass inp nws r' = .done rest r'' ∧
        vs = (if nw = 0 then 0#32 else BitVec.ofNat 32 (restoreLeadingOne v nw)) :: rest := by
  rw [payloadPass]
  by_cases hlarge : 32 < nw
  · simp [hlarge]
  by_cases hzero : nw = 0
  · simp [hzero, consPass_eq_done_iff]
  · rw [if_neg hlarge, if_neg hzero, payloadBits]
    cases takeBitsOf inp r (nw - 1) with
    | none => simp
    | some p =>
      obtain ⟨v, r'⟩ := p
      simp [consPass_eq_done_iff, hzero, Nat.le_of_not_lt hlarge]

end

/-! ## A field of width 0 (R185) -/

section
variable {inp : List Byte} {r r' : BitReader}

/-- A width 0 reads no bits, and gives the specifier 0. -/
theorem specifierPass_zero (inp : List Byte) (ws : List Byte) (r : BitReader) :
    specifierPass inp (0#8 :: ws) r = consPass 0 (specifierPass inp ws r) := by
  rw [specifierPass, BitVec.toNat_zero, takeBitsOf_zero]

/-- A specifier 0 reads no bits, and gives the value 0. -/
theorem payloadPass_zero (inp : List Byte) (nws : List Nat) (r : BitReader) :
    payloadPass inp (0 :: nws) r = consPass 0#32 (payloadPass inp nws r) := by
  rw [payloadPass, if_neg (by decide), if_pos rfl]

theorem specifierPass_insert_zero {ws ws' : List Byte} {nws : List Nat}
    (h : specifierPass inp (ws ++ ws') r = .done nws r') :
    ∃ as bs, nws = as ++ bs ∧ as.length = ws.length ∧
      specifierPass inp (ws ++ 0#8 :: ws') r = .done (as ++ 0 :: bs) r' := by
  induction ws generalizing r nws with
  | nil =>
    refine ⟨[], nws, rfl, rfl, ?_⟩
    rw [List.nil_append, specifierPass_zero]
    exact consPass_eq_done_iff.2 ⟨nws, h, rfl⟩
  | cons w ws ih =>
    obtain ⟨nw, r1, rest, htake, hrest, rfl⟩ := specifierPass_cons_done_iff.1 h
    obtain ⟨as, bs, rfl, hl, hins⟩ := ih hrest
    exact ⟨nw :: as, bs, rfl, by simp [hl], specifierPass_cons_done_iff.2 ⟨nw, r1, _, htake, hins, rfl⟩⟩

theorem payloadPass_insert_zero {as bs : List Nat} {vs : List Word} (h : payloadPass inp (as ++ bs) r = .done vs r') :
    ∃ xs ys, vs = xs ++ ys ∧ xs.length = as.length ∧
      payloadPass inp (as ++ 0 :: bs) r = .done (xs ++ 0#32 :: ys) r' := by
  induction as generalizing r vs with
  | nil =>
    refine ⟨[], vs, rfl, rfl, ?_⟩
    rw [List.nil_append, payloadPass_zero]
    exact consPass_eq_done_iff.2 ⟨vs, h, rfl⟩
  | cons nw as ih =>
    obtain ⟨hle, v, r1, rest, htake, hrest, rfl⟩ := payloadPass_cons_done_iff.1 h
    obtain ⟨xs, ys, rfl, hl, hins⟩ := ih hrest
    exact ⟨_ :: xs, ys, rfl, by simp [hl], payloadPass_cons_done_iff.2 ⟨hle, v, r1, _, htake, hins, rfl⟩⟩

theorem decodePasses_insert_zero {ws ws' : List Byte} {vs : List Word}
    (h : decodePasses inp (ws ++ ws') = .done vs r) :
    ∃ xs ys, vs = xs ++ ys ∧ xs.length = ws.length ∧
      decodePasses inp (ws ++ 0#8 :: ws') = .done (xs ++ 0#32 :: ys) r := by
  obtain ⟨nws, r1, hspecs, hpayloads⟩ := decodePasses_done_iff.1 h
  obtain ⟨as, bs, rfl, hl, hspecs'⟩ := specifierPass_insert_zero hspecs
  obtain ⟨xs, ys, rfl, hl', hpayloads'⟩ := payloadPass_insert_zero hpayloads
  exact ⟨xs, ys, rfl, hl'.trans hl, decodePasses_done_iff.2 ⟨_, r1, hspecs', hpayloads'⟩⟩

end

/-- Settles O45: both passes insert a 0 at the field's place and leave the same cursor. -/
theorem zeroWidthFieldDecodesToZero : Obligations.ZeroWidthFieldDecodesToZero := by
  intro s t ws ws' hfw h hstatus
  obtain ⟨hwide, vs, r, hpasses, rfl⟩ := exec_decode_ok h hstatus
  rw [hfw] at hwide hpasses
  obtain ⟨xs, ys, rfl, hl, hpasses'⟩ := decodePasses_insert_zero hpasses
  have hwide' : NoWideField (ws ++ 0#8 :: ws') := by
    simp only [NoWideField, List.forall_mem_append, List.forall_mem_cons] at hwide ⊢
    exact ⟨hwide.1, by decide, hwide.2⟩
  refine ⟨_, exec_of_completes (.decode (anyWide_eq_false.2 hwide') hpasses'), ?_, rfl, rfl⟩
  simp [← hl]

/-! ## Bytes behind the last payload (R187) -/

section
variable {inp : List Byte} {r r' : BitReader} (extra : List Byte)

/-- A bit inside `IN` stays what it is when bytes are added behind. -/
theorem takeBit_input_append (h : bitPos r < 8 * inp.length) : takeBit (inp ++ extra) r = takeBit inp r := by
  have hpos : r.pos < inp.length := by unfold bitPos at h; omega
  have hbyte : memRead (inp ++ extra) r.pos = memRead inp r.pos := List.getD_append _ _ _ _ hpos
  rw [takeBit, takeBit, hbyte]

theorem takeLoop_input_append (k acc : Nat) (h : bitPos r + k ≤ 8 * inp.length) :
    takeLoop (inp ++ extra) k r acc = takeLoop inp k r acc := by
  induction k generalizing r acc with
  | zero => rfl
  | succ k ih => rw [takeLoop, takeLoop, takeBit_input_append extra (by omega), ih _ (by rw [bitPos_takeBit]; omega)]

theorem takeBitsOf_input_append {k v : Nat} (h : takeBitsOf inp r k = some (v, r')) :
    takeBitsOf (inp ++ extra) r k = some (v, r') := by
  obtain ⟨hk, -, -, rfl, rfl⟩ := takeBitsOf_some h
  cases k with
  | zero => exact takeBitsOf_zero ..
  | succ k =>
    unfold remBits at hk
    rw [takeBitsOf, if_neg (by unfold remBits; rw [List.length_append]; omega),
      takeLoop_input_append extra _ _ (by omega)]

theorem specifierPass_input_append {ws : List Byte} {nws : List Nat} (h : specifierPass inp ws r = .done nws r') :
    specifierPass (inp ++ extra) ws r = .done nws r' := by
  induction ws generalizing r nws with
  | nil => exact h
  | cons w ws ih =>
    obtain ⟨nw, r1, rest, htake, hrest, rfl⟩ := specifierPass_cons_done_iff.1 h
    exact specifierPass_cons_done_iff.2 ⟨nw, r1, rest, takeBitsOf_input_append extra htake, ih hrest, rfl⟩

theorem payloadPass_input_append {nws : List Nat} {vs : List Word} (h : payloadPass inp nws r = .done vs r') :
    payloadPass (inp ++ extra) nws r = .done vs r' := by
  induction nws generalizing r vs with
  | nil => exact h
  | cons nw nws ih =>
    obtain ⟨hle, v, r1, rest, htake, hrest, rfl⟩ := payloadPass_cons_done_iff.1 h
    exact payloadPass_cons_done_iff.2 ⟨hle, v, r1, rest, takeBitsOf_input_append extra htake, ih hrest, rfl⟩

theorem decodePasses_input_append {fw : List Byte} {vs : List Word} (h : decodePasses inp fw = .done vs r) :
    decodePasses (inp ++ extra) fw = .done vs r := by
  obtain ⟨nws, r1, hspecs, hpayloads⟩ := decodePasses_done_iff.1 h
  exact decodePasses_done_iff.2
    ⟨nws, r1, specifierPass_input_append extra hspecs, payloadPass_input_append extra hpayloads⟩

end

/-- Settles O46: every read of both passes lies inside the shorter input. -/
theorem decodeIgnoresTrailingBytes : Obligations.DecodeIgnoresTrailingBytes := by
  intro s t extra h hstatus
  obtain ⟨hwide, vs, r, hpasses, rfl⟩ := exec_decode_ok h hstatus
  exact exec_of_completes
    (.decode (s := { s with inp := s.inp ++ extra }) (anyWide_eq_false.2 hwide) (decodePasses_input_append extra hpasses))

/-! ## The round trip (R188) -/

section
variable {s : State} {vs : List Word} {rest : List Bool} (hl : s.fw.length = vs.length)
  (hbits : bytesBits s.inp = specStream s.fw vs ++ payStream vs ++ rest)
include hl hbits

/-- The specifiers of an encoded buffer are the natural widths. -/
theorem inputSpecs_of_format (hfits : ∀ f ∈ s.fw.zip vs, FieldFits f.1 f.2) : inputSpecs s = vs.map bitWidth := by
  rw [inputSpecs, hbits, List.append_assoc, specsOf_specStream hl hfits]

/-- The values of an encoded buffer are those that were encoded. -/
theorem inputValues_of_format (hfits : ∀ f ∈ s.fw.zip vs, FieldFits f.1 f.2) : inputValues s = vs := by
  rw [inputValues, inputSpecs_of_format hl hbits hfits, hbits, List.append_assoc, List.drop_left' (specStream_length hl),
    valuesOf_payStream]

/-- An encoded buffer holds `S_n + P_n` bits. -/
theorem length_of_format : widthSum s.fw + payloadSum (vs.map bitWidth) ≤ 8 * s.inp.length := by
  rw [← bytesBits_length, hbits, List.length_append, List.length_append, specStream_length hl, payStream_length]
  exact Nat.le_add_right ..

/-- `DECODE` of an encoded buffer gives the values that were encoded. -/
theorem exec_decode_of_format (hwide : NoWideField s.fw) (hfits : ∀ f ∈ s.fw.zip vs, FieldFits f.1 f.2) :
    ∃ z, exec .decode s = .next z ∧ z.cr = { status := 0#4, value := 0#32 } ∧ z.val = vs := by
  have hspecs := inputSpecs_of_format hl hbits hfits
  have hsmall : ∀ nw ∈ inputSpecs s, nw ≤ 32 := by
    rw [hspecs]
    exact List.forall_mem_map.2 fun v _ => bitWidth_le v
  obtain ⟨r, hexec, -⟩ := decodeReadsTheFormat s hwide hsmall (hspecs.symm ▸ length_of_format hl hbits)
  exact ⟨_, hexec, rfl, inputValues_of_format hl hbits hfits⟩

end

/-- R187 c: one field of width 2 and a byte whose five pad bits are ones. -/
def paddedWithOnes : State := { State.reset with fw := [2#8], inp := [0xBF#8] }

/-- R188: `DECODE` takes the value 3 from that byte, and `ENCODE` pads with zeros. -/
theorem encode_of_decode_paddedWithOnes :
    ∃ t u, exec .decode paddedWithOnes = .next t ∧ t.cr.status = 0#4 ∧ exec .encode t = .next u ∧ u.cr.status = 0#4 ∧
      u.w0.buf = [0xA0#8] :=
  ⟨_, _, rfl, rfl, rfl, rfl, rfl⟩

/-- Settles O47: the copied buffer is in the format that `DECODE` reads; the pad bits are lost the other way round. -/
theorem decodeInvertsEncode : Obligations.DecodeInvertsEncode := by
  refine ⟨fun s hfields => ?_, ?_⟩
  · obtain ⟨buf, hencode, hbits, -⟩ := encodeWritesTheFormat s hfields
    obtain ⟨hwide, hl, hfits⟩ := hfields
    obtain ⟨z, hdecode, hcr, hval⟩ := exec_decode_of_format
      (s := { s with
        w0 := { buf := buf, pend := 0x00#8, off := 0, fin := true }, w1 := initWriter, inp := buf
        reader := clearValid s.reader, cr := { status := 0#4, value := 0#32 } })
      hl hbits hwide hfits
    exact ⟨_, _, z, hencode, rfl, performAction_copyIn .w0 _, rfl, hdecode, hcr, hval⟩
  · obtain ⟨t, u, hdecode, htstatus, hencode, hustatus, hbuf⟩ := encode_of_decode_paddedWithOnes
    exact ⟨paddedWithOnes, t, u, hdecode, htstatus, hencode, hustatus, by rw [hbuf]; decide⟩

end Sys2Proof.Machine
end

section
/-! PROOFS. The exceptions (60_exceptions.md): every way an operation is refused, as rules beside those of the ways it completes,
so that an operation does one or the other (R207, R209), and the `Illegal` completion (R206). -/

namespace Sys2Proof.Machine

open Sys2Proof

/-! ## The illegal word (R206) -/

/-- Settles O7: a word without an operation is the illegal branch of the step. -/
theorem illegalWordOnlyCompletes : Obligations.IllegalWordOnlyCompletes :=
  fun _ _ _ hp hc => step_of_illegal hp hc

/-! ## An overlong specifier (R186) -/

section
variable {inp : List Byte} {r r' : BitReader}

theorem consPass_eq_overlong_iff {α : Type} {x : α} {p : Pass α} : consPass x p = .overlong r ↔ p = .overlong r := by
  cases p <;> simp [consPass]

/-- A second pass that stops at a specifier had one above 32 to read. -/
theorem exists_overlong_of_payloadPass {nws : List Nat} (h : payloadPass inp nws r = .overlong r') :
    ∃ nw ∈ nws, 33 ≤ nw := by
  induction nws generalizing r with
  | nil => cases h
  | cons nw nws ih =>
    rw [payloadPass] at h
    split_ifs at h with hlarge hzero
    · exact ⟨nw, List.mem_cons_self, hlarge⟩
    · exact List.exists_mem_cons_of_exists (ih (consPass_eq_overlong_iff.1 h))
    · cases htake : takeBitsOf inp r (payloadBits nw) with
      | none => rw [htake] at h; cases h
      | some p =>
        rw [htake] at h
        exact List.exists_mem_cons_of_exists (ih (consPass_eq_overlong_iff.1 h))

/-- `DECODE` stops at a specifier only after a complete first pass, and at one above 32. -/
theorem overlong_of_decodePasses {fw : List Byte} (h : decodePasses inp fw = .overlong r) :
    widthSum fw ≤ 8 * inp.length ∧ ∃ nw ∈ specsOf (bytesBits inp) fw, 33 ≤ nw := by
  have hlen : widthSum fw ≤ 8 * inp.length := by
    by_contra hshort
    obtain ⟨r1, hout⟩ := decodePasses_specifiers_short (Nat.lt_of_not_le hshort)
    rw [hout] at h
    cases h
  obtain ⟨r1, hpasses, -⟩ := decodePasses_eq_payloadPass hlen
  exact ⟨hlen, exists_overlong_of_payloadPass (hpasses.symm.trans h)⟩

end

/-! ## The rules of refusal (R207) -/

/-- `Refuses s i reason`: in the state `s` the operation `i` is refused for `reason`. -/
inductive Refuses (s : State) : Instr → Refusal → Prop
  | append {sel : WSel} {value : Word} {width : Byte} (hw : width.toNat ≤ 32) (hf : (writerAt s sel).fin = true) :
    Refuses s (.append sel value width) .appendAfterFinish
  | appendd {sel : WSel} {value : Word} {width : Byte} (hw : width.toNat ≤ 32) (hf : (writerAt s sel).fin = true) :
    Refuses s (.appendd sel value width) .appendAfterFinish
  | finish {sel : WSel} (hf : (writerAt s sel).fin = true) : Refuses s (.finish sel) .finishTwice
  | read {i : Instr} {k : Nat} {result : Nat → Nat} (hi : Reads i k result) (hv : s.reader.valid = false) :
    Refuses s i .readerNotValid
  | encodeWide (hfw : anyWide s.fw = true) : Refuses s .encode .fieldWidthOver32
  | decodeWide (hfw : anyWide s.fw = true) : Refuses s .decode .fieldWidthOver32
  | decodeOverlong {r : BitReader} (hfw : anyWide s.fw = false) (hr : decodePasses s.inp s.fw = .overlong r) :
    Refuses s .decode .lengthSpecifierOver32

section
variable {s : State} {i : Instr}

/-- What a rule of refusal says, `exec` does. -/
theorem exec_of_refuses {reason : Refusal} (h : Refuses s i reason) : exec i s = .refused reason := by
  cases h with
  | append hw hf => rw [exec, execAppend, execAppendWith_eq, appendResult_legal hw, if_pos hf]; rfl
  | appendd hw hf => rw [exec, execAppendd, execAppenddWith_eq, appendResult_legal hw, if_pos hf]; rfl
  | finish hf => exact if_pos hf
  | read hi hv => exact exec_of_reads_invalid hi hv
  | encodeWide hfw => exact execEncodeWith_wide (p := Config.params) hfw
  | decodeWide hfw => exact execDecodeWith_wide (p := Config.params) hfw
  | decodeOverlong hfw hr => rw [exec_decode_eq (anyWide_eq_false.1 hfw), hr]; rfl

/-! ## An operation completes or is refused (R209) -/

/-- By a rule of completion or by a rule of refusal. -/
def CompletesOrRefuses (i : Instr) (s : State) : Prop :=
  (∃ t, Completes i s t) ∨ ∃ reason, Refuses s i reason

theorem completesOrRefuses_of_reads {k : Nat} {result : Nat → Nat} (hi : Reads i k result) (s : State) :
    CompletesOrRefuses i s := by
  cases hv : s.reader.valid with
  | false => exact .inr ⟨_, .read hi hv⟩
  | true =>
    cases hr : takeBitsOf s.inp s.reader k with
    | none => exact .inl ⟨_, .readOutOfData hi hv hr⟩
    | some p => exact .inl ⟨_, .read hi hv hr⟩

/-- Under unbounded capacities `ENCODE` stops by raising only (R201). -/
theorem completesOrRefuses_encode (s : State) : CompletesOrRefuses .encode s := by
  cases hfw : anyWide s.fw with
  | true => exact .inr ⟨_, .encodeWide hfw⟩
  | false =>
    cases hbody : encodeBody none s.fw s.val with
    | ok w => exact .inl ⟨_, .encode hfw hbody⟩
    | error stop => obtain rfl | rfl | rfl := encodeBody_error hbody <;> exact .inl ⟨_, .encodeError hfw hbody⟩

theorem completesOrRefuses_decode (s : State) : CompletesOrRefuses .decode s := by
  cases hfw : anyWide s.fw with
  | true => exact .inr ⟨_, .decodeWide hfw⟩
  | false =>
    cases hr : decodePasses s.inp s.fw with
    | done xs r => exact .inl ⟨_, .decode hfw hr⟩
    | outOfData r => exact .inl ⟨_, .decodeOutOfData hfw hr⟩
    | overlong r => exact .inr ⟨_, .decodeOverlong hfw hr⟩

theorem completesOrRefuses (i : Instr) (s : State) : CompletesOrRefuses i s := by
  cases hwf : i.wellFormed with
  | false => exact .inl ⟨_, .reservedWidth hwf⟩
  | true =>
    cases i with
    | bitw value => exact .inl ⟨_, .bitw value s⟩
    | winit sel => exact .inl ⟨_, .write (.winit sel)⟩
    | append sel value width =>
      have hw := of_decide_eq_true hwf
      cases hf : (writerAt s sel).fin with
      | false => exact .inl ⟨_, .write (.append hw hf)⟩
      | true => exact .inr ⟨_, .append hw hf⟩
    | appendd sel value width =>
      have hw := of_decide_eq_true hwf
      cases hf : (writerAt s sel).fin with
      | false => exact .inl ⟨_, .write (.appendd hw hf)⟩
      | true => exact .inr ⟨_, .appendd hw hf⟩
    | finish sel =>
      cases hf : (writerAt s sel).fin with
      | false => exact .inl ⟨_, .write (.finish hf)⟩
      | true => exact .inr ⟨_, .finish hf⟩
    | rinit => exact .inl ⟨_, .rinit s⟩
    | take width => exact completesOrRefuses_of_reads (.take (of_decide_eq_true hwf)) s
    | takei width => exact completesOrRefuses_of_reads (.takei (of_decide_eq_true hwf)) s
    | encode => exact completesOrRefuses_encode s
    | decode => exact completesOrRefuses_decode s

/-- No operation faults; the fault is the step's, with no action pending (R242). -/
theorem exec_ne_fault (i : Instr) (s : State) (f : Fault) : exec i s ≠ .fault f := by
  obtain ⟨t, ht⟩ | ⟨reason, hr⟩ := completesOrRefuses i s
  · simp [exec_of_completes ht]
  · simp [exec_of_refuses hr]

/-- The rules of refusal are exact: they give the refusals of `exec` and no others. -/
theorem exec_refused_iff {reason : Refusal} : exec i s = .refused reason ↔ Refuses s i reason := by
  refine ⟨fun h => ?_, exec_of_refuses⟩
  obtain ⟨t, ht⟩ | ⟨reason', hr⟩ := completesOrRefuses i s
  · cases (exec_of_completes ht).symm.trans h
  · cases (exec_of_refuses hr).symm.trans h
    exact hr

end

/-! ## The closed list (R207) -/

/-- Settles O53: an operation completes or is refused by a rule, and each rule is one of the listed cases. -/
theorem refusedOnlyAsListed : Obligations.RefusedOnlyAsListed := by
  refine fun i s _ => ⟨exec_ne_fault i s, fun reason h => ?_⟩
  cases exec_refused_iff.1 h with
  | append _ hf => exact .inl ⟨rfl, .inl ⟨_, _, _, rfl, hf⟩⟩
  | appendd _ hf => exact .inl ⟨rfl, .inr ⟨_, _, _, rfl, hf⟩⟩
  | finish hf => exact .inr (.inl ⟨rfl, _, rfl, hf⟩)
  | read hi hv => exact .inr (.inr (.inl ⟨rfl, by cases hi <;> simp [opOf], hv⟩))
  | encodeWide hfw => exact .inr (.inr (.inr (.inl ⟨rfl, by simp [opOf], anyWide_iff.1 hfw⟩)))
  | decodeWide hfw => exact .inr (.inr (.inr (.inl ⟨rfl, by simp [opOf], anyWide_iff.1 hfw⟩)))
  | decodeOverlong _ hr => exact .inr (.inr (.inr (.inr ⟨rfl, rfl, overlong_of_decodePasses hr⟩)))

/-- Settles O21: the rules of refusal of a finished writer. -/
theorem finishedWriterRefuses : Obligations.FinishedWriterRefuses :=
  fun _ _ _ _ hf hw => ⟨exec_of_refuses (.append hw hf), exec_of_refuses (.appendd hw hf), exec_of_refuses (.finish hf)⟩

/-- Settles O32: the rule of refusal of the two reads. -/
theorem invalidReaderRefuses : Obligations.InvalidReaderRefuses :=
  fun _ _ hw hv => ⟨exec_of_refuses (.read (.take hw) hv), exec_of_refuses (.read (.takei hw) hv)⟩

end Sys2Proof.Machine
end
